-- ==== Sys2Proof/Word.lean ====
section
/-! DEFINITION. The words of the CS2010: the 8-bit byte of registers, cells and addresses, and the 16-bit instruction word. -/

namespace Sys2Proof

/-- An 8-bit value: a general register, PC, SP, a data cell, an address of either memory (00_scope.md R6, 10_state.md R10, R12, R18). -/
abbrev Byte := BitVec 8

/-- A word of program memory: one whole instruction, bit 15 the first bit of its operation code (20_memory.md R32, 30_encoding.md R45). -/
abbrev InstrWord := BitVec 16

end Sys2Proof
end

