-- ==== Sys2Proof/Config.lean ====
section
/-! DEFINITION. What an implementation of the CS2010 fixes: the open parameters of 92_eei_decisions.md with the values this model runs with. -/

namespace Sys2Proof

/-- The two readings of V after ROR that 90_conflicts.md C4 compares: the ALU table's entry and the prose beside it. -/
inductive RorVRule where
  | table | prose
deriving DecidableEq, Repr

namespace Config

/-- DMEM_CELLS: the full range of MAR (20_memory.md R31). DESIGN CHOICE (log 12): the spec's decision D2; unsafe if cells are absent. -/
def dmemCells : Nat := 256

/-- PMEM_WORDS: the full range of PC (20_memory.md R32). DESIGN CHOICE (log 12): the spec's decision D3; unsafe if words are absent. -/
def pmemWords : Nat := 256

/-- What a data cell reads that the launch did not define and nothing has written. DESIGN CHOICE (log 4), unsafe at reset. -/
def unlistedCell : Byte := 0x00

/-- What a program word reads that the loaded program does not define. DESIGN CHOICE (log 5), unsafe at reset. -/
def unlistedWord : InstrWord := 0x0000

/-- SP_RESET. DESIGN CHOICE (log 1): the default the spec recommends for an open parameter (10_state.md R27); unsafe. -/
def spReset : Byte := 0xFF

/-- REG_RESET, one value for each of R0 to R7. DESIGN CHOICE (log 2): the spec gives none (10_state.md R27); unsafe. -/
def regReset : Byte := 0x00

/-- SR_RESET, one value for each of V, N, Z, C. DESIGN CHOICE (log 3): the spec gives none (10_state.md R27); unsafe. -/
def flagReset : Bool := false

/-- ROR_V_RULE: the table wins (40_alu_function.md R73, 90_conflicts.md C4). DESIGN CHOICE (log 7): the spec's decision D18; unsafe. -/
def rorVRule : RorVRule := .table

/-- STRICT_UNUSED_BITS: unused bits are ignored (30_encoding.md R55). DESIGN CHOICE (log 6): the spec's decision D6; unsafe. -/
def strictUnusedBits : Bool := false

end Config

end Sys2Proof
end

