-- ==== Sys2Proof/Syntax.lean ====
section
/-! DEFINITION. The instructions of the CS2010 as syntax: one constructor per row of the opcode table, in the table's order. -/

namespace Sys2Proof

/-- The names of the eight general registers, a 3-bit register number each (10_state.md R10, 30_encoding.md R54). -/
inductive Reg where
  | r0 | r1 | r2 | r3 | r4 | r5 | r6 | r7
deriving DecidableEq, Repr

/-- An instruction (30_encoding.md R56, R57). The documented rows carry their operands in the order of the assembly line (R62). An undocumented
row carries every bit of its word that the row leaves free, so that the word itself can be named when it is refused. -/
inductive Instr where
  /-- `ST (Rb),Rs`: base register `b`, stored register `r` (41_memory_access.md R86). -/
  | st (b r : Reg)
  /-- `LD Rd,(Rb)` (41_memory_access.md R87). -/
  | ld (d b : Reg)
  /-- `STS k,Rs` (41_memory_access.md R88). -/
  | sts (k : Byte) (r : Reg)
  /-- `LDS Rd,k` (41_memory_access.md R89). -/
  | lds (d : Reg) (k : Byte)
  /-- `CALL k` (42_control_transfer.md R91). -/
  | call (k : Byte)
  /-- `RET` (42_control_transfer.md R92). -/
  | ret
  /-- `BREQ k`, condition 000 (42_control_transfer.md R94). -/
  | breq (k : Byte)
  /-- `BRCS k`, also written `BRLO k`, condition 001 (42_control_transfer.md R95, 30_encoding.md R65). -/
  | brcs (k : Byte)
  /-- `BRVS k`, condition 010 (42_control_transfer.md R96). -/
  | brvs (k : Byte)
  /-- `BRLT k`, condition 011 (42_control_transfer.md R97). -/
  | brlt (k : Byte)
  /-- BRxx with one of the four undocumented conditions 1xx; well formed when `cc` is one of them (46_special.md R122). -/
  | undocBr (cc : BitVec 3) (k : Byte)
  /-- `JMP k` (42_control_transfer.md R98). -/
  | jmp (k : Byte)
  /-- `ADD Rd,Rs` (43_arithmetic_compare.md R101). -/
  | add (d r : Reg)
  /-- Undocumented operation code 01001 (46_special.md R121). -/
  | undoc01001 (x : BitVec 11)
  /-- `SUB Rd,Rs` (43_arithmetic_compare.md R102). -/
  | sub (d r : Reg)
  /-- `CP Rd,Rs` (43_arithmetic_compare.md R103). -/
  | cp (d r : Reg)
  /-- Undocumented operation code 01100 (46_special.md R121). -/
  | undoc01100 (x : BitVec 11)
  /-- Undocumented operation code 01101 (46_special.md R121). -/
  | undoc01101 (x : BitVec 11)
  /-- Undocumented operation code 01110 (46_special.md R121). -/
  | undoc01110 (x : BitVec 11)
  /-- `MOV Rd,Rs` (44_data_movement.md R111). -/
  | mov (d r : Reg)
  /-- Undocumented operation code 10000 (46_special.md R121). -/
  | undoc10000 (x : BitVec 11)
  /-- Undocumented operation code 10001 (46_special.md R121). -/
  | undoc10001 (x : BitVec 11)
  /-- `CLC` (45_carry_and_rotate.md R114). -/
  | clc
  /-- `SEC` (45_carry_and_rotate.md R115). -/
  | sec
  /-- `ROR Rd` (45_carry_and_rotate.md R116). -/
  | ror (d : Reg)
  /-- `ROL Rd` (45_carry_and_rotate.md R117). -/
  | rol (d : Reg)
  /-- Undocumented operation code 10110 (46_special.md R121). -/
  | undoc10110 (x : BitVec 11)
  /-- `STOP` (46_special.md R119). -/
  | stop
  /-- `ADDI Rd,k` (43_arithmetic_compare.md R104). -/
  | addi (d : Reg) (k : Byte)
  /-- Undocumented operation code 11001 (46_special.md R121). -/
  | undoc11001 (x : BitVec 11)
  /-- `SUBI Rd,k` (43_arithmetic_compare.md R105). -/
  | subi (d : Reg) (k : Byte)
  /-- `CPI Rd,k` (43_arithmetic_compare.md R106). -/
  | cpi (d : Reg) (k : Byte)
  /-- Undocumented operation code 11100 (46_special.md R121). -/
  | undoc11100 (x : BitVec 11)
  /-- Undocumented operation code 11101 (46_special.md R121). -/
  | undoc11101 (x : BitVec 11)
  /-- Undocumented operation code 11110 (46_special.md R121). -/
  | undoc11110 (x : BitVec 11)
  /-- `LDI Rd,k` (44_data_movement.md R112). -/
  | ldi (d : Reg) (k : Byte)
deriving DecidableEq, Repr

end Sys2Proof
end

