-- ==== Sys2Proof/Machine/State.lean ====
section
/-! DEFINITION. The state of the CS2010 (10_state.md R26), its faults and refusals, launch and reset. -/

namespace Sys2Proof.Machine

/-- The eight general registers of 8 bits; none is hard-wired, banked or a second name of another (10_state.md R10). -/
structure Regs where
  r0 : Byte
  r1 : Byte
  r2 : Byte
  r3 : Byte
  r4 : Byte
  r5 : Byte
  r6 : Byte
  r7 : Byte
deriving DecidableEq, Repr

/-- SR: the four flags overflow, negative, zero, carry/borrow, held apart as 10_state.md R17 recommends (10_state.md R15). -/
structure Flags where
  v : Bool
  n : Bool
  z : Bool
  c : Bool
deriving DecidableEq, Repr

/-- Running, or in the wait that STOP enters (10_state.md R25). -/
inductive Status where
  | running | stopped
deriving DecidableEq, Repr

/-- A memory whose cells are `w` bits wide, as the list of its cells that do not hold what an unlisted cell reads as; the canonical form is
`Memory.wf` of Machine/Ops.lean. -/
abbrev Memory (w : Nat) := List (Nat × BitVec w)

/-- The architectural state of 10_state.md R26 and, beside it, the program memory PROG, which no instruction writes (10_state.md R24). -/
structure State where
  /-- R0 to R7 (10_state.md R10). -/
  regs : Regs
  /-- The program counter, a word address of program memory (10_state.md R12). -/
  pc : Byte
  /-- The stack pointer, the first free cell of the stack (10_state.md R18). -/
  sp : Byte
  /-- The status register SR (10_state.md R15). -/
  flags : Flags
  /-- Data memory, 256 cells of 8 bits (10_state.md R23). -/
  dmem : List Host.Cell
  /-- Program memory, 256 words of 16 bits (10_state.md R24). -/
  prog : List (Nat × BitVec 16)
  /-- Running or stopped (10_state.md R25). -/
  status : Status
deriving DecidableEq, Repr

/-- Why a step has no next state although no word was refused. -/
inductive Fault where
  /-- Raised by `step` alone, when the status is already stopped: a stopped machine fetches and executes nothing (46_special.md R119,
  70_reset_and_hazards.md R146). Safe: the model goes nowhere where the spec lets nothing short of a reset go on. -/
  | stopped
deriving DecidableEq, Repr

/-- Why the model has no meaning for the word it fetched. -/
inductive Refusal where
  /-- Raised by an arm of `exec` whose instruction has no meaning yet; no arm does. Safe: nothing is claimed of such an instruction. -/
  | notModelled (mnemonic : String)
  /-- The outcome `Undocumented(IR)` of 60_exceptions.md R125 with the word and the address it was fetched from. Raised by the meanings of the
  11 undocumented operation codes and of the branch conditions 1xx (46_special.md R121, R122), and by `stepWith true` on a word with a non-zero
  unused bit (30_encoding.md R55). Safe: the hardware does something there that no source gives. -/
  | undocumented (ir : BitVec 16) (addr : BitVec 8)
deriving DecidableEq, Repr

/-- What the host sets before it applies reset: the open parameters of 10_state.md R27 (REG_RESET, SP_RESET, SR_RESET, DMEM_INIT, PROG). -/
structure Launch where
  regs : Regs
  sp : Byte
  flags : Flags
  dmem : List Host.Cell
  prog : List (Nat × BitVec 16)
deriving DecidableEq, Repr

/-- The one reset of a run, for every value of the open parameters: pc is 0 and the status is Running (10_state.md R27,
70_reset_and_hazards.md R136). -/
def State.launch (p : Launch) : State where
  regs := p.regs
  pc := 0
  sp := p.sp
  flags := p.flags
  dmem := p.dmem
  prog := p.prog
  status := .running

/-- The launch with nothing loaded and every open parameter at the value Config names. DESIGN CHOICE (log 1 to 5), unsafe. -/
def Launch.default : Launch where
  regs := ⟨Config.regReset, Config.regReset, Config.regReset, Config.regReset, Config.regReset, Config.regReset, Config.regReset, Config.regReset⟩
  sp := Config.spReset
  flags := ⟨Config.flagReset, Config.flagReset, Config.flagReset, Config.flagReset⟩
  dmem := []
  prog := []

/-- The machine right after reset (10_state.md R27, 70_reset_and_hazards.md R136, R137). -/
def State.reset : State := State.launch Launch.default

end Sys2Proof.Machine
end

