-- ==== Sys2Proof/Machine/Flags.lean ====
section
/-! DEFINITION. Results and flags of the four arithmetic operations, and the flag results of CLC and SEC (40_alu_function.md R71 to R77, R80 to R82). -/

namespace Sys2Proof.Machine

/-- N: bit 7 of the result (40_alu_function.md R80). -/
def negative (r : Byte) : Bool := r.getLsbD 7

/-- Z: the 8-bit result is 0x00 (40_alu_function.md R80). -/
def isZero (r : Byte) : Bool := r == 0

/-- An exact signed result outside -128..127 (40_alu_function.md R82). -/
def outsideSigned (x : Int) : Bool := decide (x < -128 ∨ 127 < x)

/-- carry(A+B): the unsigned sum exceeds 255 (40_alu_function.md R81). -/
def carryAdd (a b : Byte) : Bool := decide (255 < a.toNat + b.toNat)

/-- borrow(A-B): A < B as unsigned numbers (40_alu_function.md R81). -/
def borrowSub (a b : Byte) : Bool := decide (a.toNat < b.toNat)

/-- overflow(A+B) (40_alu_function.md R82). -/
def overflowAdd (a b : Byte) : Bool := outsideSigned (a.toInt + b.toInt)

/-- overflow(A-B) (40_alu_function.md R82). -/
def overflowSub (a b : Byte) : Bool := outsideSigned (a.toInt - b.toInt)

/-- (A + B) mod 2^8; the carry is no input (40_alu_function.md R76). -/
def addResult (a b : Byte) : Byte := a + b

/-- The flags of the addition (40_alu_function.md R76). -/
def addFlags (a b : Byte) : Flags where
  v := overflowAdd a b
  n := negative (addResult a b)
  z := isZero (addResult a b)
  c := carryAdd a b

/-- (A - B) mod 2^8; the carry is no input (40_alu_function.md R77). -/
def subResult (a b : Byte) : Byte := a - b

/-- The flags of the subtraction (40_alu_function.md R77). -/
def subFlags (a b : Byte) : Flags where
  v := overflowSub a b
  n := negative (subResult a b)
  z := isZero (subResult a b)
  c := borrowSub a b

/-- SHR(A,CIN): the carry enters at bit 7 (40_alu_function.md R73). -/
def shrResult (a : Byte) (cin : Bool) : Byte := BitVec.ofBool cin ++ a.extractLsb' 1 7

/-- V of SHR: the table's CIN xor A0, or the prose's change of the sign bit (40_alu_function.md R73, 90_conflicts.md C4). -/
def shrOverflow (rule : RorVRule) (a : Byte) (cin : Bool) : Bool :=
  match rule with
  | .table => cin ^^ a.getLsbD 0
  | .prose => cin ^^ a.getLsbD 7

/-- The flags of SHR: bit 0 leaves into C (40_alu_function.md R73). -/
def shrFlags (rule : RorVRule) (a : Byte) (cin : Bool) : Flags where
  v := shrOverflow rule a cin
  n := negative (shrResult a cin)
  z := isZero (shrResult a cin)
  c := a.getLsbD 0

/-- SHL(A,CIN): the carry enters at bit 0 (40_alu_function.md R74). -/
def shlResult (a : Byte) (cin : Bool) : Byte := a.extractLsb' 0 7 ++ BitVec.ofBool cin

/-- The flags of SHL: bit 7 leaves into C, V is A7 xor A6 (40_alu_function.md R74). -/
def shlFlags (a : Byte) (cin : Bool) : Flags where
  v := a.getLsbD 7 ^^ a.getLsbD 6
  n := negative (shlResult a cin)
  z := isZero (shlResult a cin)
  c := a.getLsbD 7

/-- Clear carry: V, N, Z pass through (40_alu_function.md R71). -/
def clearCarry (f : Flags) : Flags := { f with c := false }

/-- Set carry: V, N, Z pass through (40_alu_function.md R72). -/
def setCarry (f : Flags) : Flags := { f with c := true }

/-- The condition LT: N xor V (30_encoding.md R57). -/
def Flags.less (f : Flags) : Bool := f.n ^^ f.v

end Sys2Proof.Machine
end

