-- ==== Sys2Proof/Machine/Ops.lean ====
section
/-! DEFINITION. The named operations over registers, memories, program counter, stack and status. The CS2010 has no exception, no trap and no
return from one (60_exceptions.md R124, R128, R129), so there is no operation that takes an exception; an undocumented word is refused. -/

namespace Sys2Proof.Machine

/-- The value of a general register. -/
def Regs.get (rs : Regs) : Reg → Byte
  | .r0 => rs.r0
  | .r1 => rs.r1
  | .r2 => rs.r2
  | .r3 => rs.r3
  | .r4 => rs.r4
  | .r5 => rs.r5
  | .r6 => rs.r6
  | .r7 => rs.r7

/-- The registers with one of them written. -/
def Regs.set (rs : Regs) (r : Reg) (x : Byte) : Regs :=
  match r with
  | .r0 => { rs with r0 := x }
  | .r1 => { rs with r1 := x }
  | .r2 => { rs with r2 := x }
  | .r3 => { rs with r3 := x }
  | .r4 => { rs with r4 := x }
  | .r5 => { rs with r5 := x }
  | .r6 => { rs with r6 := x }
  | .r7 => { rs with r7 := x }

/-- What the cell at `a` holds; `fill` is what an unlisted cell reads as. -/
def Memory.read {w : Nat} (fill : BitVec w) (a : Nat) : Memory w → BitVec w
  | [] => fill
  | (b, x) :: m => if b = a then x else Memory.read fill a m

/-- The memory with no entry at `a`. -/
def Memory.erase {w : Nat} (a : Nat) : Memory w → Memory w
  | [] => []
  | (b, x) :: m => if b = a then Memory.erase a m else (b, x) :: Memory.erase a m

/-- The memory with the entry `(a, x)` before the first entry of a higher address. -/
def Memory.insert {w : Nat} (a : Nat) (x : BitVec w) : Memory w → Memory w
  | [] => [(a, x)]
  | (b, y) :: m => if a < b then (a, x) :: (b, y) :: m else (b, y) :: Memory.insert a x m

/-- The cell at `a` written with `x`: writing `fill` leaves the cell unlisted, which keeps the canonical form. -/
def Memory.write {w : Nat} (fill : BitVec w) (a : Nat) (x : BitVec w) (m : Memory w) : Memory w :=
  if x = fill then Memory.erase a m else Memory.insert a x (Memory.erase a m)

/-- From the address `lo` on: addresses strictly rising and below `size`, and no entry equal to `fill`. -/
def Memory.wfFrom {w : Nat} (fill : BitVec w) (size : Nat) : Nat → Memory w → Bool
  | _, [] => true
  | lo, (a, x) :: m => decide (lo ≤ a) && decide (a < size) && x != fill && Memory.wfFrom fill size (a + 1) m

/-- The canonical form of a memory of `size` cells: strictly rising addresses inside the address space, no entry equal to what an unlisted
cell reads as. -/
def Memory.wf {w : Nat} (fill : BitVec w) (size : Nat) (m : Memory w) : Bool := Memory.wfFrom fill size 0 m

/-- `x[r]` (00_scope.md R8). -/
def State.readReg (s : State) (r : Reg) : Byte := s.regs.get r

/-- `x[r] <- v` (00_scope.md R8). -/
def State.writeReg (s : State) (r : Reg) (x : Byte) : State := { s with regs := s.regs.set r x }

/-- SR loads all four flag outputs of the ALU (40_alu_function.md R83). -/
def State.setFlags (s : State) (f : Flags) : State := { s with flags := f }

/-- `pc <- t` (00_scope.md R8). -/
def State.setPc (s : State) (t : Byte) : State := { s with pc := t }

/-- `MemRead(a, 1)`: one data cell; every address is valid (00_scope.md R8, 20_memory.md R35, R36). -/
def State.readData (s : State) (a : Byte) : Byte := Memory.read Config.unlistedCell a.toNat s.dmem

/-- `MemWrite(a, 1, v)`: one data cell; every address is valid (00_scope.md R8, 20_memory.md R35, R36). -/
def State.writeData (s : State) (a x : Byte) : State := { s with dmem := Memory.write Config.unlistedCell a.toNat x s.dmem }

/-- `Fetch(a)`: the word of program memory at a word address (00_scope.md R8, 20_memory.md R32). -/
def State.readProg (s : State) (a : Byte) : InstrWord := Memory.read Config.unlistedWord a.toNat s.prog

/-- The word at the program counter (10_state.md R13). -/
def State.fetch (s : State) : InstrWord := s.readProg s.pc

/-- The fetch increment, modulo 2^8 (10_state.md R13, R14). -/
def State.advance (s : State) : State := { s with pc := s.pc + 1 }

/-- PUSH: write at SP, then decrement SP modulo 2^8 (10_state.md R18, R19). -/
def State.push (s : State) (x : Byte) : State := { s.writeData s.sp x with sp := s.sp - 1 }

/-- The first half of POP: increment SP modulo 2^8 (10_state.md R18, R19). -/
def State.incSp (s : State) : State := { s with sp := s.sp + 1 }

/-- The cell SP points at; after `incSp`, the value that POP reads (10_state.md R18). -/
def State.atSp (s : State) : Byte := s.readData s.sp

/-- The wait that STOP enters (46_special.md R119). -/
def State.halt (s : State) : State := { s with status := .stopped }

/-- A conditional jump: pc takes the target or keeps its value (42_control_transfer.md R93). -/
def State.jumpIf (s : State) (taken : Bool) (target : Byte) : State := if taken then s.setPc target else s

/-- The outcome `Undocumented(IR)`: the word and the address it was fetched from, one below the incremented pc (60_exceptions.md R125, R128). -/
def refuseUndocumented (ir : InstrWord) (s : State) : Host.Outcome State Fault Refusal := .refused (.undocumented ir (s.pc - 1))

/-- SR read as the 4-bit vector {V, N, Z, C} (10_state.md R17); no instruction does. -/
def Flags.toBits (f : Flags) : BitVec 4 := BitVec.ofBool f.v ++ BitVec.ofBool f.n ++ BitVec.ofBool f.z ++ BitVec.ofBool f.c

/-- Program memory that holds the words of a program from address 0 on (70_reset_and_hazards.md R139); the words from `a` on. -/
def Memory.ofWords (a : Nat) : List InstrWord → Memory 16
  | [] => []
  | x :: ws => Memory.write Config.unlistedWord a x (Memory.ofWords (a + 1) ws)

end Sys2Proof.Machine
end

