-- ==== Sys2Proof/Machine/Operands.lean ====
section
/-! DEFINITION. The operand forms of the CS2010: register, immediate, register-indirect address and direct address. -/

namespace Sys2Proof.Machine

/-- Where ALU operand B comes from: a register IR[2:0] or the immediate IR[7:0] (43_arithmetic_compare.md R100, 40_alu_function.md R70). -/
inductive Source where
  | reg (r : Reg)
  | imm (k : Byte)
deriving DecidableEq, Repr

/-- The two addressing modes of data memory (41_memory_access.md R85). -/
inductive Address where
  /-- Register indirect: the whole content of a base register (ST, LD). -/
  | indirect (b : Reg)
  /-- Direct: IR[7:0] (STS, LDS). -/
  | direct (k : Byte)
deriving DecidableEq, Repr

/-- The value of an operand; an immediate is used as it stands (30_encoding.md R52). -/
def Source.value (s : State) : Source → Byte
  | .reg r => s.readReg r
  | .imm k => k

/-- The data address, with no offset, scaling or modification of the base register (20_memory.md R38, 30_encoding.md R53). -/
def Address.effective (s : State) : Address → Byte
  | .indirect b => s.readReg b
  | .direct k => k

end Sys2Proof.Machine
end

