-- ==== Sys2Proof/Machine/Arithmetic.lean ====
section
/-! DEFINITION. The meanings of ADD, SUB, CP and their immediate forms ADDI, SUBI, CPI (43_arithmetic_compare.md). -/

namespace Sys2Proof.Machine

/-- Addition into a register with all four flags (43_arithmetic_compare.md R100). -/
def addInto (d : Reg) (b : Source) (s : State) : Host.Outcome State Fault Refusal :=
  .next ((s.writeReg d (addResult (s.readReg d) (b.value s))).setFlags (addFlags (s.readReg d) (b.value s)))

/-- Subtraction into a register with all four flags (43_arithmetic_compare.md R100). -/
def subInto (d : Reg) (b : Source) (s : State) : Host.Outcome State Fault Refusal :=
  .next ((s.writeReg d (subResult (s.readReg d) (b.value s))).setFlags (subFlags (s.readReg d) (b.value s)))

/-- The same subtraction with its result discarded (43_arithmetic_compare.md R103, R106). -/
def compareWith (d : Reg) (b : Source) (s : State) : Host.Outcome State Fault Refusal :=
  .next (s.setFlags (subFlags (s.readReg d) (b.value s)))

/-- ADD Rd,Rs (43_arithmetic_compare.md R101). -/
def execAdd (d r : Reg) (s : State) : Host.Outcome State Fault Refusal := addInto d (.reg r) s

/-- SUB Rd,Rs (43_arithmetic_compare.md R102). -/
def execSub (d r : Reg) (s : State) : Host.Outcome State Fault Refusal := subInto d (.reg r) s

/-- CP Rd,Rs (43_arithmetic_compare.md R103). -/
def execCp (d r : Reg) (s : State) : Host.Outcome State Fault Refusal := compareWith d (.reg r) s

/-- ADDI Rd,k (43_arithmetic_compare.md R104). -/
def execAddi (d : Reg) (k : Byte) (s : State) : Host.Outcome State Fault Refusal := addInto d (.imm k) s

/-- SUBI Rd,k (43_arithmetic_compare.md R105). -/
def execSubi (d : Reg) (k : Byte) (s : State) : Host.Outcome State Fault Refusal := subInto d (.imm k) s

/-- CPI Rd,k (43_arithmetic_compare.md R106). -/
def execCpi (d : Reg) (k : Byte) (s : State) : Host.Outcome State Fault Refusal := compareWith d (.imm k) s

end Sys2Proof.Machine
end

