-- ==== Sys2Proof/Machine/CarryRotate.lean ====
section
/-! DEFINITION. The meanings of CLC, SEC, ROR and ROL (45_carry_and_rotate.md). -/

namespace Sys2Proof.Machine

/-- CLC: C gets 0, nothing else changes (45_carry_and_rotate.md R114, 90_conflicts.md C1). -/
def execClc (s : State) : Host.Outcome State Fault Refusal := .next (s.setFlags (clearCarry s.flags))

/-- SEC: C gets 1, nothing else changes (45_carry_and_rotate.md R115, 90_conflicts.md C1). -/
def execSec (s : State) : Host.Outcome State Fault Refusal := .next (s.setFlags (setCarry s.flags))

/-- ROR Rd: rotate right through C (45_carry_and_rotate.md R116). -/
def execRor (d : Reg) (s : State) : Host.Outcome State Fault Refusal :=
  .next ((s.writeReg d (shrResult (s.readReg d) s.flags.c)).setFlags (shrFlags Config.rorVRule (s.readReg d) s.flags.c))

/-- ROL Rd: rotate left through C (45_carry_and_rotate.md R117). -/
def execRol (d : Reg) (s : State) : Host.Outcome State Fault Refusal :=
  .next ((s.writeReg d (shlResult (s.readReg d) s.flags.c)).setFlags (shlFlags (s.readReg d) s.flags.c))

end Sys2Proof.Machine
end

