-- ==== Sys2Proof/Machine/ControlTransfer.lean ====
section
/-! DEFINITION. The meanings of CALL, RET, the BRxx family and JMP (42_control_transfer.md). Targets are absolute word addresses (30_encoding.md R53). -/

namespace Sys2Proof.Machine

/-- CALL k: the pushed pc is the address of the CALL plus 1 (42_control_transfer.md R91). DESIGN CHOICE (log 11): the spec's decision D4; unsafe. -/
def execCall (k : Byte) (s : State) : Host.Outcome State Fault Refusal := .next ((s.push s.pc).setPc k)

/-- RET: increment sp, then read the cell at the new sp (42_control_transfer.md R92, 90_conflicts.md C7). -/
def execRet (s : State) : Host.Outcome State Fault Refusal := .next (s.incSp.setPc s.incSp.atSp)

/-- BREQ k: taken exactly when Z = 1 (42_control_transfer.md R94). -/
def execBreq (k : Byte) (s : State) : Host.Outcome State Fault Refusal := .next (s.jumpIf s.flags.z k)

/-- BRCS k, also BRLO k: taken exactly when C = 1 (42_control_transfer.md R95). -/
def execBrcs (k : Byte) (s : State) : Host.Outcome State Fault Refusal := .next (s.jumpIf s.flags.c k)

/-- BRVS k: taken exactly when V = 1 (42_control_transfer.md R96). -/
def execBrvs (k : Byte) (s : State) : Host.Outcome State Fault Refusal := .next (s.jumpIf s.flags.v k)

/-- BRLT k: taken exactly when N xor V = 1 (42_control_transfer.md R97). -/
def execBrlt (k : Byte) (s : State) : Host.Outcome State Fault Refusal := .next (s.jumpIf s.flags.less k)

/-- JMP k (42_control_transfer.md R98). -/
def execJmp (k : Byte) (s : State) : Host.Outcome State Fault Refusal := .next (s.setPc k)

end Sys2Proof.Machine
end

