-- ==== Sys2Proof/Machine/DataMovement.lean ====
section
/-! DEFINITION. The meanings of MOV and LDI (44_data_movement.md): a register written, no flag (R110). -/

namespace Sys2Proof.Machine

/-- A value copied into a register through ALU operation 11--, SR not loaded (44_data_movement.md R110). -/
def copyInto (d : Reg) (b : Source) (s : State) : Host.Outcome State Fault Refusal := .next (s.writeReg d (b.value s))

/-- MOV Rd,Rs (44_data_movement.md R111, 90_conflicts.md C3). -/
def execMov (d r : Reg) (s : State) : Host.Outcome State Fault Refusal := copyInto d (.reg r) s

/-- LDI Rd,k (44_data_movement.md R112). -/
def execLdi (d : Reg) (k : Byte) (s : State) : Host.Outcome State Fault Refusal := copyInto d (.imm k) s

end Sys2Proof.Machine
end

