-- ==== Sys2Proof/Machine/MemoryAccess.lean ====
section
/-! DEFINITION. The meanings of ST, LD, STS, LDS (41_memory_access.md). Like every meaning, they start from the state whose pc already holds the
address of the next instruction (10_state.md R13). -/

namespace Sys2Proof.Machine

/-- A store of one register into one data cell; no flag, no register written (41_memory_access.md R85). -/
def storeTo (a : Address) (r : Reg) (s : State) : Host.Outcome State Fault Refusal :=
  .next (s.writeData (a.effective s) (s.readReg r))

/-- A load of one data cell into one register, the address taken from the old registers; no flag written (41_memory_access.md R85, R87). -/
def loadFrom (d : Reg) (a : Address) (s : State) : Host.Outcome State Fault Refusal :=
  .next (s.writeReg d (s.readData (a.effective s)))

/-- ST (Rb),Rs (41_memory_access.md R86). -/
def execSt (b r : Reg) (s : State) : Host.Outcome State Fault Refusal := storeTo (.indirect b) r s

/-- LD Rd,(Rb) (41_memory_access.md R87, 90_conflicts.md C2). -/
def execLd (d b : Reg) (s : State) : Host.Outcome State Fault Refusal := loadFrom d (.indirect b) s

/-- STS k,Rs (41_memory_access.md R88). -/
def execSts (k : Byte) (r : Reg) (s : State) : Host.Outcome State Fault Refusal := storeTo (.direct k) r s

/-- LDS Rd,k (41_memory_access.md R89, 90_conflicts.md C2). -/
def execLds (d : Reg) (k : Byte) (s : State) : Host.Outcome State Fault Refusal := loadFrom d (.direct k) s

end Sys2Proof.Machine
end

