-- ==== Sys2Proof/WellFormed.lean ====
section
/-! DEFINITION. Which terms of `Instr` stand for an instruction word, and which of them the source documents. -/

namespace Sys2Proof

/-- The one check that the types of the operands do not make already: the undocumented branch row holds the conditions 100 to 111 only, since
000 to 011 are BREQ, BRCS, BRVS and BRLT (30_encoding.md R57, R58). Every register number, datum and address is legal (R52 to R54). -/
def Instr.wellFormed : Instr → Bool
  | .undocBr cc _ => cc.getLsbD 2
  | .st _ _ | .ld _ _ | .sts _ _ | .lds _ _ => true
  | .call _ | .ret | .breq _ | .brcs _ | .brvs _ | .brlt _ | .jmp _ => true
  | .add _ _ | .sub _ _ | .cp _ _ | .mov _ _ => true
  | .clc | .sec | .ror _ | .rol _ | .stop => true
  | .addi _ _ | .subi _ _ | .cpi _ _ | .ldi _ _ => true
  | .undoc01001 _ | .undoc01100 _ | .undoc01101 _ | .undoc01110 _ | .undoc10000 _ | .undoc10001 _ => true
  | .undoc10110 _ | .undoc11001 _ | .undoc11100 _ | .undoc11101 _ | .undoc11110 _ => true

/-- The rows the source documents: all but the 11 codes marked "no documentado" and the branch conditions 1xx (30_encoding.md R56 to R58). -/
def Instr.documented : Instr → Bool
  | .undocBr _ _ => false
  | .undoc01001 _ | .undoc01100 _ | .undoc01101 _ | .undoc01110 _ | .undoc10000 _ | .undoc10001 _ => false
  | .undoc10110 _ | .undoc11001 _ | .undoc11100 _ | .undoc11101 _ | .undoc11110 _ => false
  | .st _ _ | .ld _ _ | .sts _ _ | .lds _ _ => true
  | .call _ | .ret | .breq _ | .brcs _ | .brvs _ | .brlt _ | .jmp _ => true
  | .add _ _ | .sub _ _ | .cp _ _ | .mov _ _ => true
  | .clc | .sec | .ror _ | .rol _ | .stop => true
  | .addi _ _ | .subi _ _ | .cpi _ _ | .ldi _ _ => true

end Sys2Proof
end

