-- ==== Sys2Proof/Decode.lean ====
section
/-! DEFINITION. Decoding and encoding of instruction words, and the opcode table with its masks (30_encoding.md). -/

namespace Sys2Proof

/-- Register number to register (30_encoding.md R54). -/
def Reg.ofBits (n : BitVec 3) : Reg :=
  match n with
  | 0#3 => .r0
  | 1#3 => .r1
  | 2#3 => .r2
  | 3#3 => .r3
  | 4#3 => .r4
  | 5#3 => .r5
  | 6#3 => .r6
  | _ => .r7

/-- Register to register number (30_encoding.md R54). -/
def Reg.toBits : Reg → BitVec 3
  | .r0 => 0
  | .r1 => 1
  | .r2 => 2
  | .r3 => 3
  | .r4 => 4
  | .r5 => 5
  | .r6 => 6
  | .r7 => 7

/-- Field `op`, the operation code, IR[15:11] (30_encoding.md R46). -/
def fieldOp (w : InstrWord) : BitVec 5 := w.extractLsb' 11 5

/-- Field `cc`, the branch condition, IR[10:8] (30_encoding.md R49). -/
def fieldCc (w : InstrWord) : BitVec 3 := w.extractLsb' 8 3

/-- Field `rd`, IR[10:8] (30_encoding.md R47, R48). -/
def fieldRd (w : InstrWord) : Reg := Reg.ofBits (w.extractLsb' 8 3)

/-- Field `rs`, IR[2:0] (30_encoding.md R47). -/
def fieldRs (w : InstrWord) : Reg := Reg.ofBits (w.extractLsb' 0 3)

/-- Field `k`, IR[7:0], used as it stands (30_encoding.md R48, R49, R52, R53). -/
def fieldK (w : InstrWord) : Byte := w.extractLsb' 0 8

/-- All the bits below the operation code, IR[10:0]. -/
def fieldRest (w : InstrWord) : BitVec 11 := w.extractLsb' 0 11

/-- The branch family: the condition table has the rows 000 to 011 only (30_encoding.md R57, R60). -/
def decodeBranch (cc : BitVec 3) (k : Byte) : Instr :=
  match cc with
  | 0b000#3 => .breq k
  | 0b001#3 => .brcs k
  | 0b010#3 => .brvs k
  | 0b011#3 => .brlt k
  | _ => .undocBr cc k

/-- The decoding algorithm of 30_encoding.md R60: total on the 65536 words, unused bits ignored (R55). A word without a documented meaning
decodes to the undocumented row it belongs to, which has no effect of its own and is refused when it is executed. -/
def decode (w : InstrWord) : Instr :=
  match fieldOp w with
  | 0b00000#5 => .st (fieldRs w) (fieldRd w)
  | 0b00001#5 => .ld (fieldRd w) (fieldRs w)
  | 0b00010#5 => .sts (fieldK w) (fieldRd w)
  | 0b00011#5 => .lds (fieldRd w) (fieldK w)
  | 0b00100#5 => .call (fieldK w)
  | 0b00101#5 => .ret
  | 0b00110#5 => decodeBranch (fieldCc w) (fieldK w)
  | 0b00111#5 => .jmp (fieldK w)
  | 0b01000#5 => .add (fieldRd w) (fieldRs w)
  | 0b01001#5 => .undoc01001 (fieldRest w)
  | 0b01010#5 => .sub (fieldRd w) (fieldRs w)
  | 0b01011#5 => .cp (fieldRd w) (fieldRs w)
  | 0b01100#5 => .undoc01100 (fieldRest w)
  | 0b01101#5 => .undoc01101 (fieldRest w)
  | 0b01110#5 => .undoc01110 (fieldRest w)
  | 0b01111#5 => .mov (fieldRd w) (fieldRs w)
  | 0b10000#5 => .undoc10000 (fieldRest w)
  | 0b10001#5 => .undoc10001 (fieldRest w)
  | 0b10010#5 => .clc
  | 0b10011#5 => .sec
  | 0b10100#5 => .ror (fieldRd w)
  | 0b10101#5 => .rol (fieldRd w)
  | 0b10110#5 => .undoc10110 (fieldRest w)
  | 0b10111#5 => .stop
  | 0b11000#5 => .addi (fieldRd w) (fieldK w)
  | 0b11001#5 => .undoc11001 (fieldRest w)
  | 0b11010#5 => .subi (fieldRd w) (fieldK w)
  | 0b11011#5 => .cpi (fieldRd w) (fieldK w)
  | 0b11100#5 => .undoc11100 (fieldRest w)
  | 0b11101#5 => .undoc11101 (fieldRest w)
  | 0b11110#5 => .undoc11110 (fieldRest w)
  | _ => .ldi (fieldRd w) (fieldK w) -- 0b11111, the one code left

/-- Format A with its unused bits 7:3 written 0 (30_encoding.md R47, R55). -/
def formatA (op : BitVec 5) (rd rs : Reg) : InstrWord := op ++ rd.toBits ++ 0#5 ++ rs.toBits

/-- Format B (30_encoding.md R48). -/
def formatB (op : BitVec 5) (rd : Reg) (k : Byte) : InstrWord := op ++ rd.toBits ++ k

/-- Format C (30_encoding.md R49). -/
def formatC (op : BitVec 5) (cc : BitVec 3) (k : Byte) : InstrWord := op ++ cc ++ k

/-- An operation code and the eleven bits below it: format "-" when they are 0 (30_encoding.md R50), an undocumented word otherwise. -/
def formatRest (op : BitVec 5) (x : BitVec 11) : InstrWord := op ++ x

/-- The canonical encoding of 30_encoding.md R66: unused bits written 0. An undocumented row gives back the word it came from. -/
def encode : Instr → InstrWord
  | .st b r => formatA 0b00000 r b
  | .ld d b => formatA 0b00001 d b
  | .sts k r => formatB 0b00010 r k
  | .lds d k => formatB 0b00011 d k
  | .call k => formatC 0b00100 0b000 k
  | .ret => formatRest 0b00101 0
  | .breq k => formatC 0b00110 0b000 k
  | .brcs k => formatC 0b00110 0b001 k
  | .brvs k => formatC 0b00110 0b010 k
  | .brlt k => formatC 0b00110 0b011 k
  | .undocBr cc k => formatC 0b00110 cc k
  | .jmp k => formatC 0b00111 0b000 k
  | .add d r => formatA 0b01000 d r
  | .undoc01001 x => formatRest 0b01001 x
  | .sub d r => formatA 0b01010 d r
  | .cp d r => formatA 0b01011 d r
  | .undoc01100 x => formatRest 0b01100 x
  | .undoc01101 x => formatRest 0b01101 x
  | .undoc01110 x => formatRest 0b01110 x
  | .mov d r => formatA 0b01111 d r
  | .undoc10000 x => formatRest 0b10000 x
  | .undoc10001 x => formatRest 0b10001 x
  | .clc => formatRest 0b10010 0
  | .sec => formatRest 0b10011 0
  | .ror d => formatB 0b10100 d 0
  | .rol d => formatB 0b10101 d 0
  | .undoc10110 x => formatRest 0b10110 x
  | .stop => formatRest 0b10111 0
  | .addi d k => formatB 0b11000 d k
  | .undoc11001 x => formatRest 0b11001 x
  | .subi d k => formatB 0b11010 d k
  | .cpi d k => formatB 0b11011 d k
  | .undoc11100 x => formatRest 0b11100 x
  | .undoc11101 x => formatRest 0b11101 x
  | .undoc11110 x => formatRest 0b11110 x
  | .ldi d k => formatB 0b11111 d k

/-- The decoder under the parameter STRICT_UNUSED_BITS: when it is set, a word whose unused bits are not all 0 has no instruction
(30_encoding.md R55, 93_implementation_defined.md U4). -/
def decodeWith (strict : Bool) (w : InstrWord) : Option Instr :=
  if strict && encode (decode w) != w then none else some (decode w)

/-- The instruction the model's decoder reads from a table word of `nbits` bits; the bits above `nbits` are 0. No instruction is longer
than 16 bits (30_encoding.md R45). -/
def decodeTableWord (nbits w : Nat) : Option Instr :=
  if nbits ≤ 16 then decodeWith Config.strictUnusedBits (BitVec.ofNat 16 (w % 2 ^ nbits)) else none

/-- A row of the opcode table: a word selects it when its bits under `mask` are `pattern`; `strictMask` adds the unused bits, which the
strict option requires to be 0 (spec/INDEX.md, "Reading the opcode table"). -/
structure OpcodeRow where
  mnemonic : String
  pattern : InstrWord
  mask : InstrWord
  strictMask : InstrWord
deriving DecidableEq, Repr

/-- The word selects the row. -/
def OpcodeRow.selects (row : OpcodeRow) (w : InstrWord) : Bool := w &&& row.mask == row.pattern

/-- The bits of a word that the row's instruction does not use (30_encoding.md R55). -/
def OpcodeRow.unusedBits (row : OpcodeRow) : InstrWord := row.strictMask &&& ~~~row.mask

/-- The opcode table, formats A to C, rows of the operation codes 00000 to 00111 (30_encoding.md R56, R57). -/
def opcodeRowsLow : List OpcodeRow := [
  ⟨"ST", 0x0000, 0xF800, 0xF8F8⟩,
  ⟨"LD", 0x0800, 0xF800, 0xF8F8⟩,
  ⟨"STS", 0x1000, 0xF800, 0xF800⟩,
  ⟨"LDS", 0x1800, 0xF800, 0xF800⟩,
  ⟨"CALL", 0x2000, 0xF800, 0xFF00⟩,
  ⟨"RET", 0x2800, 0xF800, 0xFFFF⟩,
  ⟨"BREQ", 0x3000, 0xFF00, 0xFF00⟩,
  ⟨"BRCS", 0x3100, 0xFF00, 0xFF00⟩,
  ⟨"BRVS", 0x3200, 0xFF00, 0xFF00⟩,
  ⟨"BRLT", 0x3300, 0xFF00, 0xFF00⟩,
  ⟨"undocumented_BRxx_condition_1xx", 0x3400, 0xFC00, 0xFC00⟩,
  ⟨"JMP", 0x3800, 0xF800, 0xFF00⟩]

/-- The rows of the operation codes 01000 to 10110 (30_encoding.md R56). -/
def opcodeRowsMiddle : List OpcodeRow := [
  ⟨"ADD", 0x4000, 0xF800, 0xF8F8⟩,
  ⟨"undocumented_01001", 0x4800, 0xF800, 0xF800⟩,
  ⟨"SUB", 0x5000, 0xF800, 0xF8F8⟩,
  ⟨"CP", 0x5800, 0xF800, 0xF8F8⟩,
  ⟨"undocumented_01100", 0x6000, 0xF800, 0xF800⟩,
  ⟨"undocumented_01101", 0x6800, 0xF800, 0xF800⟩,
  ⟨"undocumented_01110", 0x7000, 0xF800, 0xF800⟩,
  ⟨"MOV", 0x7800, 0xF800, 0xF8F8⟩,
  ⟨"undocumented_10000", 0x8000, 0xF800, 0xF800⟩,
  ⟨"undocumented_10001", 0x8800, 0xF800, 0xF800⟩,
  ⟨"CLC", 0x9000, 0xF800, 0xFFFF⟩,
  ⟨"SEC", 0x9800, 0xF800, 0xFFFF⟩,
  ⟨"ROR", 0xA000, 0xF800, 0xF8FF⟩,
  ⟨"ROL", 0xA800, 0xF800, 0xF8FF⟩,
  ⟨"undocumented_10110", 0xB000, 0xF800, 0xF800⟩]

/-- The rows of the operation codes 10111 to 11111 (30_encoding.md R56). -/
def opcodeRowsHigh : List OpcodeRow := [
  ⟨"STOP", 0xB800, 0xF800, 0xFFFF⟩,
  ⟨"ADDI", 0xC000, 0xF800, 0xF800⟩,
  ⟨"undocumented_11001", 0xC800, 0xF800, 0xF800⟩,
  ⟨"SUBI", 0xD000, 0xF800, 0xF800⟩,
  ⟨"CPI", 0xD800, 0xF800, 0xF800⟩,
  ⟨"undocumented_11100", 0xE000, 0xF800, 0xF800⟩,
  ⟨"undocumented_11101", 0xE800, 0xF800, 0xF800⟩,
  ⟨"undocumented_11110", 0xF000, 0xF800, 0xF800⟩,
  ⟨"LDI", 0xF800, 0xF800, 0xF800⟩]

/-- The whole opcode table (30_encoding.md R56, R57, spec/opcode_table.json). -/
def opcodeTable : List OpcodeRow := opcodeRowsLow ++ opcodeRowsMiddle ++ opcodeRowsHigh

/-- The mnemonic of the row an instruction belongs to, spelled as the opcode table spells it. -/
def Instr.mnemonic : Instr → String
  | .st _ _ => "ST"
  | .ld _ _ => "LD"
  | .sts _ _ => "STS"
  | .lds _ _ => "LDS"
  | .call _ => "CALL"
  | .ret => "RET"
  | .breq _ => "BREQ"
  | .brcs _ => "BRCS"
  | .brvs _ => "BRVS"
  | .brlt _ => "BRLT"
  | .undocBr _ _ => "undocumented_BRxx_condition_1xx"
  | .jmp _ => "JMP"
  | .add _ _ => "ADD"
  | .undoc01001 _ => "undocumented_01001"
  | .sub _ _ => "SUB"
  | .cp _ _ => "CP"
  | .undoc01100 _ => "undocumented_01100"
  | .undoc01101 _ => "undocumented_01101"
  | .undoc01110 _ => "undocumented_01110"
  | .mov _ _ => "MOV"
  | .undoc10000 _ => "undocumented_10000"
  | .undoc10001 _ => "undocumented_10001"
  | .clc => "CLC"
  | .sec => "SEC"
  | .ror _ => "ROR"
  | .rol _ => "ROL"
  | .undoc10110 _ => "undocumented_10110"
  | .stop => "STOP"
  | .addi _ _ => "ADDI"
  | .undoc11001 _ => "undocumented_11001"
  | .subi _ _ => "SUBI"
  | .cpi _ _ => "CPI"
  | .undoc11100 _ => "undocumented_11100"
  | .undoc11101 _ => "undocumented_11101"
  | .undoc11110 _ => "undocumented_11110"
  | .ldi _ _ => "LDI"

end Sys2Proof
end

