-- ==== Sys2Proof/Machine/Special.lean ====
section
/-! DEFINITION. STOP and the words without a documented meaning (46_special.md). -/

namespace Sys2Proof.Machine

/-- STOP: the status becomes Stopped; pc keeps the address of the STOP plus 1 (46_special.md R119). DESIGN CHOICE (log 8): the spec's decision
D10 that nothing short of a reset ends the wait; unsafe if something else does. -/
def execStop (s : State) : Host.Outcome State Fault Refusal := .next s.halt

/-- BRxx with a condition 1xx: refused, with the word (46_special.md R122). -/
def execUndocBr (cc : BitVec 3) (k : Byte) (s : State) : Host.Outcome State Fault Refusal :=
  refuseUndocumented (formatC 0b00110 cc k) s

/-- Operation code 01001, "no documentado": refused, with the word (46_special.md R121). -/
def execUndoc01001 (x : BitVec 11) (s : State) : Host.Outcome State Fault Refusal := refuseUndocumented (formatRest 0b01001 x) s

/-- Operation code 01100, "no documentado": refused, with the word (46_special.md R121). -/
def execUndoc01100 (x : BitVec 11) (s : State) : Host.Outcome State Fault Refusal := refuseUndocumented (formatRest 0b01100 x) s

/-- Operation code 01101, "no documentado": refused, with the word (46_special.md R121). -/
def execUndoc01101 (x : BitVec 11) (s : State) : Host.Outcome State Fault Refusal := refuseUndocumented (formatRest 0b01101 x) s

/-- Operation code 01110, "no documentado": refused, with the word (46_special.md R121). -/
def execUndoc01110 (x : BitVec 11) (s : State) : Host.Outcome State Fault Refusal := refuseUndocumented (formatRest 0b01110 x) s

/-- Operation code 10000, "no documentado": refused, with the word (46_special.md R121). -/
def execUndoc10000 (x : BitVec 11) (s : State) : Host.Outcome State Fault Refusal := refuseUndocumented (formatRest 0b10000 x) s

/-- Operation code 10001, "no documentado": refused, with the word (46_special.md R121). -/
def execUndoc10001 (x : BitVec 11) (s : State) : Host.Outcome State Fault Refusal := refuseUndocumented (formatRest 0b10001 x) s

/-- Operation code 10110, "no documentado": refused, with the word (46_special.md R121). -/
def execUndoc10110 (x : BitVec 11) (s : State) : Host.Outcome State Fault Refusal := refuseUndocumented (formatRest 0b10110 x) s

/-- Operation code 11001, "no documentado": refused, with the word (46_special.md R121). -/
def execUndoc11001 (x : BitVec 11) (s : State) : Host.Outcome State Fault Refusal := refuseUndocumented (formatRest 0b11001 x) s

/-- Operation code 11100, "no documentado": refused, with the word (46_special.md R121). -/
def execUndoc11100 (x : BitVec 11) (s : State) : Host.Outcome State Fault Refusal := refuseUndocumented (formatRest 0b11100 x) s

/-- Operation code 11101, "no documentado": refused, with the word (46_special.md R121). -/
def execUndoc11101 (x : BitVec 11) (s : State) : Host.Outcome State Fault Refusal := refuseUndocumented (formatRest 0b11101 x) s

/-- Operation code 11110, "no documentado": refused, with the word (46_special.md R121). -/
def execUndoc11110 (x : BitVec 11) (s : State) : Host.Outcome State Fault Refusal := refuseUndocumented (formatRest 0b11110 x) s

end Sys2Proof.Machine
end

