-- ==== Sys2Proof/Machine/Dispatch.lean ====
section
/-! DEFINITION. One arm per constructor of `Instr`, each one call of the instruction's meaning. -/

namespace Sys2Proof.Machine

def exec (i : Instr) (s : State) : Host.Outcome State Fault Refusal :=
  match i with
  | .st b r => Sys2Proof.Machine.execSt b r s
  | .ld d b => Sys2Proof.Machine.execLd d b s
  | .sts k r => Sys2Proof.Machine.execSts k r s
  | .lds d k => Sys2Proof.Machine.execLds d k s
  | .call k => Sys2Proof.Machine.execCall k s
  | .ret => Sys2Proof.Machine.execRet s
  | .breq k => Sys2Proof.Machine.execBreq k s
  | .brcs k => Sys2Proof.Machine.execBrcs k s
  | .brvs k => Sys2Proof.Machine.execBrvs k s
  | .brlt k => Sys2Proof.Machine.execBrlt k s
  | .undocBr cc k => Sys2Proof.Machine.execUndocBr cc k s
  | .jmp k => Sys2Proof.Machine.execJmp k s
  | .add d r => Sys2Proof.Machine.execAdd d r s
  | .undoc01001 x => Sys2Proof.Machine.execUndoc01001 x s
  | .sub d r => Sys2Proof.Machine.execSub d r s
  | .cp d r => Sys2Proof.Machine.execCp d r s
  | .undoc01100 x => Sys2Proof.Machine.execUndoc01100 x s
  | .undoc01101 x => Sys2Proof.Machine.execUndoc01101 x s
  | .undoc01110 x => Sys2Proof.Machine.execUndoc01110 x s
  | .mov d r => Sys2Proof.Machine.execMov d r s
  | .undoc10000 x => Sys2Proof.Machine.execUndoc10000 x s
  | .undoc10001 x => Sys2Proof.Machine.execUndoc10001 x s
  | .clc => Sys2Proof.Machine.execClc s
  | .sec => Sys2Proof.Machine.execSec s
  | .ror d => Sys2Proof.Machine.execRor d s
  | .rol d => Sys2Proof.Machine.execRol d s
  | .undoc10110 x => Sys2Proof.Machine.execUndoc10110 x s
  | .stop => Sys2Proof.Machine.execStop s
  | .addi d k => Sys2Proof.Machine.execAddi d k s
  | .undoc11001 x => Sys2Proof.Machine.execUndoc11001 x s
  | .subi d k => Sys2Proof.Machine.execSubi d k s
  | .cpi d k => Sys2Proof.Machine.execCpi d k s
  | .undoc11100 x => Sys2Proof.Machine.execUndoc11100 x s
  | .undoc11101 x => Sys2Proof.Machine.execUndoc11101 x s
  | .undoc11110 x => Sys2Proof.Machine.execUndoc11110 x s
  | .ldi d k => Sys2Proof.Machine.execLdi d k s

end Sys2Proof.Machine
end

