-- ==== Sys2Proof/Machine/Step.lean ====
section
/-! DEFINITION. One step of the machine (70_reset_and_hazards.md R146) and the placing of a word where it fetches. -/

namespace Sys2Proof.Machine

/-- A step under the parameter STRICT_UNUSED_BITS: fetch at pc, increment pc, execute (70_reset_and_hazards.md R146, 10_state.md R13). A stopped
machine has no step (46_special.md R119); a word the decoder refuses is `Undocumented(IR)` (30_encoding.md R55). -/
def stepWith (strict : Bool) (s : State) : Host.Outcome State Fault Refusal :=
  match s.status with
  | .stopped => .fault .stopped
  | .running =>
    match decodeWith strict s.fetch with
    | some i => exec i s.advance
    | none => refuseUndocumented s.fetch s.advance

/-- One step, with unused bits ignored as 46_special.md R123 has it. -/
def step (s : State) : Host.Outcome State Fault Refusal := stepWith Config.strictUnusedBits s

/-- `s` running, with the word of a table row at its program counter: the very next step fetches and runs it. It stands for the host's loading of
program memory before a run (20_memory.md R32, log 16). -/
def State.withFetchWord (s : State) (nbits w : Nat) : State :=
  { s with prog := Memory.write Config.unlistedWord s.pc.toNat (BitVec.ofNat 16 (w % 2 ^ nbits)) s.prog, status := .running }

end Sys2Proof.Machine
end

