-- ==== Sys2Proof/AsmSyntax.lean ====
section
/-! DEFINITION. The assembly language as far as the source's examples show it: the parts of a source line (30_encoding.md R61 to R65). -/

namespace Sys2Proof

/-- An operand as written: `R3`, `(R3)`, a number, or the name of a label (30_encoding.md R62, R63). The register number is what stands after
the `R`; whether that register exists is the assembler's check (R64). -/
inductive AsmOperand where
  | reg (n : Nat)
  | indirect (n : Nat)
  | number (n : Int)
  | label (name : List Char)
deriving DecidableEq, Repr

/-- A mnemonic and its operands. -/
structure AsmInstr where
  mnemonic : List Char
  operands : List AsmOperand
deriving DecidableEq, Repr

/-- A source line `[label:] [mnemonic [operand[,operand]]] [;comment]`, the comment dropped (30_encoding.md R61). -/
structure AsmLine where
  label : Option (List Char)
  instr : Option AsmInstr
deriving DecidableEq, Repr

end Sys2Proof
end

