-- ==== Sys2Proof/Machine/Alu.lean ====
section
/-! DEFINITION. The ALU block with its operation codes, as the truth table of 40_alu_function.md R70 gives it. -/

namespace Sys2Proof.Machine

/-- The rows of the ALU table (40_alu_function.md R70). -/
inductive AluOp where
  | clearCarry | setCarry | shr | shl | passA | add | sub | passB
deriving DecidableEq, Repr

/-- RESULT and SOUT; `none` is a dash of the table: the source gives that output no value for the operation. -/
structure AluOut where
  result : Option Byte
  sout : Option Flags
deriving DecidableEq, Repr

/-- The row that OP3 OP2 OP1 OP0 select; 0001 has none (40_alu_function.md R70, R79). -/
def AluOp.ofCode (op : BitVec 4) : Option AluOp :=
  match op with
  | 0b0000#4 => some .clearCarry
  | 0b0010#4 => some .clearCarry
  | 0b0011#4 => some .setCarry
  | 0b0100#4 => some .shr
  | 0b0101#4 => some .shl
  | 0b0110#4 => some .passA
  | 0b0111#4 => some .passA
  | 0b1000#4 => some .add
  | 0b1001#4 => some .add
  | 0b1010#4 => some .sub
  | 0b1011#4 => some .sub
  | 0b1100#4 => some .passB
  | 0b1101#4 => some .passB
  | 0b1110#4 => some .passB
  | 0b1111#4 => some .passB
  | _ => none

/-- The outputs of one row (40_alu_function.md R71 to R78). -/
def AluOp.out (op : AluOp) (a b : Byte) (sin : Flags) : AluOut :=
  match op with
  | .clearCarry => ⟨none, some (Sys2Proof.Machine.clearCarry sin)⟩
  | .setCarry => ⟨none, some (Sys2Proof.Machine.setCarry sin)⟩
  | .shr => ⟨some (shrResult a sin.c), some (shrFlags Config.rorVRule a sin.c)⟩
  | .shl => ⟨some (shlResult a sin.c), some (shlFlags a sin.c)⟩
  | .passA => ⟨some a, none⟩
  | .add => ⟨some (addResult a b), some (addFlags a b)⟩
  | .sub => ⟨some (subResult a b), some (subFlags a b)⟩
  | .passB => ⟨some b, none⟩

/-- The ALU: `none` on the operation 0001, which no documented instruction uses (40_alu_function.md R70, R79). -/
def alu (op : BitVec 4) (a b : Byte) (sin : Flags) : Option AluOut := (AluOp.ofCode op).map (fun row => row.out a b sin)

end Sys2Proof.Machine
end

