-- ==== Sys2Proof/Machine/Assembler.lean ====
section
/-! DEFINITION. The assembler: text line to parts, parts to instruction, lines to program words (30_encoding.md R61 to R66). It is a tool beside the
machine; the step does not use it. -/

namespace Sys2Proof

/-- The register of a number, if there is one: R0 to R7 (30_encoding.md R64). -/
def asmReg (n : Nat) : Option Reg := if n < 8 then some (Reg.ofBits (BitVec.ofNat 3 n)) else none

/-- A datum in -128..255, encoded modulo 2^8 (30_encoding.md R63). -/
def asmDatum (n : Int) : Option Byte := if -128 ≤ n ∧ n ≤ 255 then some (BitVec.ofInt 8 n) else none

/-- An address in 0..255 (30_encoding.md R63). -/
def asmAddress (n : Int) : Option Byte := if 0 ≤ n ∧ n ≤ 255 then some (BitVec.ofInt 8 n) else none

/-- The names of the labels with the program addresses they stand for (30_encoding.md R61). -/
abbrev Labels := List (List Char × Nat)

/-- The address of a label (30_encoding.md R61). DESIGN CHOICE (log 19), safe: the spec gives no case rule (91_not_in_source.md N8), and the model
compares names character by character, so two names that differ only in case are two labels. -/
def lookupLabel (name : List Char) : Labels → Option Nat
  | [] => none
  | (x, a) :: ls => if x = name then some a else lookupLabel name ls

/-- A register operand. -/
def AsmOperand.register : AsmOperand → Option Reg
  | .reg n => asmReg n
  | .indirect _ | .number _ | .label _ => none

/-- A register-indirect memory operand: the base register in parentheses (30_encoding.md R62). -/
def AsmOperand.base : AsmOperand → Option Reg
  | .indirect n => asmReg n
  | .reg _ | .number _ | .label _ => none

/-- An immediate datum (30_encoding.md R63). -/
def AsmOperand.datum : AsmOperand → Option Byte
  | .number n => asmDatum n
  | .reg _ | .indirect _ | .label _ => none

/-- A data-memory address (30_encoding.md R63). -/
def AsmOperand.dataAddress : AsmOperand → Option Byte
  | .number n => asmAddress n
  | .reg _ | .indirect _ | .label _ => none

/-- A program-memory address: a number, or usually a label (30_encoding.md R62, R63). -/
def AsmOperand.target (ls : Labels) : AsmOperand → Option Byte
  | .number n => asmAddress n
  | .label name => (lookupLabel name ls).bind (fun a => asmAddress a)
  | .reg _ | .indirect _ => none

/-- No operand. -/
def noOperand (i : Instr) : List AsmOperand → Option Instr
  | [] => some i
  | _ :: _ => none

/-- Exactly one operand of the given form. -/
def oneOperand {α : Type} (f : AsmOperand → Option α) (mk : α → Instr) : List AsmOperand → Option Instr
  | [x] => (f x).map mk
  | [] | _ :: _ :: _ => none

/-- Exactly two operands of the given forms. -/
def twoOperands {α β : Type} (f : AsmOperand → Option α) (g : AsmOperand → Option β) (mk : α → β → Instr) : List AsmOperand → Option Instr
  | [x, y] => (f x).bind (fun a => (g y).map (mk a))
  | [] | [_] | _ :: _ :: _ :: _ => none

/-- The instruction of a mnemonic with its operands, in the operand order of 30_encoding.md R62. BRLO is BRCS (R65); a mnemonic that is not in
the table is refused, NOP, PUSH, POP and BRxx among them (R65, 46_special.md R120). -/
def assembleInstr (ls : Labels) (x : AsmInstr) : Option Instr :=
  if x.mnemonic = "ST".toList then twoOperands AsmOperand.base AsmOperand.register Instr.st x.operands
  else if x.mnemonic = "LD".toList then twoOperands AsmOperand.register AsmOperand.base Instr.ld x.operands
  else if x.mnemonic = "STS".toList then twoOperands AsmOperand.dataAddress AsmOperand.register Instr.sts x.operands
  else if x.mnemonic = "LDS".toList then twoOperands AsmOperand.register AsmOperand.dataAddress Instr.lds x.operands
  else if x.mnemonic = "CALL".toList then oneOperand (AsmOperand.target ls) Instr.call x.operands
  else if x.mnemonic = "RET".toList then noOperand Instr.ret x.operands
  else if x.mnemonic = "BREQ".toList then oneOperand (AsmOperand.target ls) Instr.breq x.operands
  else if x.mnemonic = "BRCS".toList then oneOperand (AsmOperand.target ls) Instr.brcs x.operands
  else if x.mnemonic = "BRLO".toList then oneOperand (AsmOperand.target ls) Instr.brcs x.operands
  else if x.mnemonic = "BRVS".toList then oneOperand (AsmOperand.target ls) Instr.brvs x.operands
  else if x.mnemonic = "BRLT".toList then oneOperand (AsmOperand.target ls) Instr.brlt x.operands
  else if x.mnemonic = "JMP".toList then oneOperand (AsmOperand.target ls) Instr.jmp x.operands
  else if x.mnemonic = "ADD".toList then twoOperands AsmOperand.register AsmOperand.register Instr.add x.operands
  else if x.mnemonic = "SUB".toList then twoOperands AsmOperand.register AsmOperand.register Instr.sub x.operands
  else if x.mnemonic = "CP".toList then twoOperands AsmOperand.register AsmOperand.register Instr.cp x.operands
  else if x.mnemonic = "MOV".toList then twoOperands AsmOperand.register AsmOperand.register Instr.mov x.operands
  else if x.mnemonic = "CLC".toList then noOperand Instr.clc x.operands
  else if x.mnemonic = "SEC".toList then noOperand Instr.sec x.operands
  else if x.mnemonic = "ROR".toList then oneOperand AsmOperand.register Instr.ror x.operands
  else if x.mnemonic = "ROL".toList then oneOperand AsmOperand.register Instr.rol x.operands
  else if x.mnemonic = "STOP".toList then noOperand Instr.stop x.operands
  else if x.mnemonic = "ADDI".toList then twoOperands AsmOperand.register AsmOperand.datum Instr.addi x.operands
  else if x.mnemonic = "SUBI".toList then twoOperands AsmOperand.register AsmOperand.datum Instr.subi x.operands
  else if x.mnemonic = "CPI".toList then twoOperands AsmOperand.register AsmOperand.datum Instr.cpi x.operands
  else if x.mnemonic = "LDI".toList then twoOperands AsmOperand.register AsmOperand.datum Instr.ldi x.operands
  else none

/-- The register operand of a register. -/
def asmOfReg (r : Reg) : AsmOperand := .reg r.toBits.toNat

/-- The indirect operand of a base register. -/
def asmOfBase (r : Reg) : AsmOperand := .indirect r.toBits.toNat

/-- The number operand of a datum or an address. -/
def asmOfByte (k : Byte) : AsmOperand := .number k.toNat

/-- The assembly line of an instruction, in the syntax of 30_encoding.md R62; an undocumented row has none. -/
def asmOf : Instr → Option AsmInstr
  | .st b r => some ⟨"ST".toList, [asmOfBase b, asmOfReg r]⟩
  | .ld d b => some ⟨"LD".toList, [asmOfReg d, asmOfBase b]⟩
  | .sts k r => some ⟨"STS".toList, [asmOfByte k, asmOfReg r]⟩
  | .lds d k => some ⟨"LDS".toList, [asmOfReg d, asmOfByte k]⟩
  | .call k => some ⟨"CALL".toList, [asmOfByte k]⟩
  | .ret => some ⟨"RET".toList, []⟩
  | .breq k => some ⟨"BREQ".toList, [asmOfByte k]⟩
  | .brcs k => some ⟨"BRCS".toList, [asmOfByte k]⟩
  | .brvs k => some ⟨"BRVS".toList, [asmOfByte k]⟩
  | .brlt k => some ⟨"BRLT".toList, [asmOfByte k]⟩
  | .jmp k => some ⟨"JMP".toList, [asmOfByte k]⟩
  | .add d r => some ⟨"ADD".toList, [asmOfReg d, asmOfReg r]⟩
  | .sub d r => some ⟨"SUB".toList, [asmOfReg d, asmOfReg r]⟩
  | .cp d r => some ⟨"CP".toList, [asmOfReg d, asmOfReg r]⟩
  | .mov d r => some ⟨"MOV".toList, [asmOfReg d, asmOfReg r]⟩
  | .clc => some ⟨"CLC".toList, []⟩
  | .sec => some ⟨"SEC".toList, []⟩
  | .ror d => some ⟨"ROR".toList, [asmOfReg d]⟩
  | .rol d => some ⟨"ROL".toList, [asmOfReg d]⟩
  | .stop => some ⟨"STOP".toList, []⟩
  | .addi d k => some ⟨"ADDI".toList, [asmOfReg d, asmOfByte k]⟩
  | .subi d k => some ⟨"SUBI".toList, [asmOfReg d, asmOfByte k]⟩
  | .cpi d k => some ⟨"CPI".toList, [asmOfReg d, asmOfByte k]⟩
  | .ldi d k => some ⟨"LDI".toList, [asmOfReg d, asmOfByte k]⟩
  | .undocBr _ _ => none
  | .undoc01001 _ | .undoc01100 _ | .undoc01101 _ | .undoc01110 _ | .undoc10000 _ | .undoc10001 _ => none
  | .undoc10110 _ | .undoc11001 _ | .undoc11100 _ | .undoc11101 _ | .undoc11110 _ => none

/-- First pass: each label stands for the address of the instruction that follows it; a name given twice is refused (30_encoding.md R61). -/
def collectLabels (a : Nat) : List AsmLine → Option Labels
  | [] => some []
  | l :: ls =>
    match collectLabels (if l.instr.isSome then a + 1 else a) ls, l.label with
    | some found, some name => if (lookupLabel name found).isSome then none else some ((name, a) :: found)
    | some found, none => some found
    | none, _ => none

/-- Second pass: the words of the lines that hold an instruction. -/
def assembleLines (ls : Labels) : List AsmLine → Option (List InstrWord)
  | [] => some []
  | l :: rest =>
    match l.instr with
    | none => assembleLines ls rest
    | some x => (assembleInstr ls x).bind (fun i => (assembleLines ls rest).map (fun ws => encode i :: ws))

/-- The program words of a source text's lines, the first at address 0; at most 256 of them (30_encoding.md R61, R66, 20_memory.md R32). -/
def assemble (lines : List AsmLine) : Option (List InstrWord) :=
  ((collectLabels 0 lines).bind (fun ls => assembleLines ls lines)).bind
    (fun ws => if ws.length ≤ Config.pmemWords then some ws else none)

/-- The characters with no blanks at either end. DESIGN CHOICE (log 19), safe: the spec does not say which characters are blanks, and the model takes
the space alone, so a line with a tab has no reading. -/
def trimBlanks (cs : List Char) : List Char := ((cs.dropWhile (· == ' ')).reverse.dropWhile (· == ' ')).reverse

/-- The characters split at the first occurrence of `x`, if there is one. -/
def splitFirst (x : Char) (cs : List Char) : Option (List Char × List Char) :=
  match cs.dropWhile (· != x) with
  | [] => none
  | _ :: after => some (cs.takeWhile (· != x), after)

/-- The value of a decimal or hexadecimal digit. -/
def digitValue (c : Char) : Option Nat :=
  if '0' ≤ c ∧ c ≤ '9' then some (c.toNat - '0'.toNat)
  else if 'A' ≤ c ∧ c ≤ 'F' then some (c.toNat - 'A'.toNat + 10)
  else none

/-- The number that the digits denote in the base, `acc` being what stands to the left of them. -/
def digitsValue (radix acc : Nat) : List Char → Option Nat
  | [] => some acc
  | c :: cs =>
    match digitValue c with
    | some v => if v < radix then digitsValue radix (radix * acc + v) cs else none
    | none => none

/-- A number of at least one digit. -/
def parseDigits (radix : Nat) (cs : List Char) : Option Nat := if cs.isEmpty then none else digitsValue radix 0 cs

/-- A literal: decimal digits, `$` and hexadecimal digits, either after an optional minus sign (30_encoding.md R63). -/
def parseNumber (cs : List Char) : Option Int :=
  match cs with
  | '$' :: ds => (parseDigits 16 ds).map Int.ofNat
  | '-' :: '$' :: ds => (parseDigits 16 ds).map (fun n => -(Int.ofNat n))
  | '-' :: ds => (parseDigits 10 ds).map (fun n => -(Int.ofNat n))
  | ds => (parseDigits 10 ds).map Int.ofNat

/-- A name of letters and digits that begins with a letter, in capitals or not (30_encoding.md R61 shows "MULT", "Fsi", "R2MAYOR"). DESIGN CHOICE
(log 19), safe: no other character stands in a name. -/
def isName (cs : List Char) : Bool :=
  match cs with
  | [] => false
  | c :: rest => c.isAlpha && rest.all Char.isAlphanum

/-- A register name: R and exactly one decimal digit, so R00, R01 and R12 are none. Whether the register exists is the check of `asmReg`, which
rejects R8 and R9 (30_encoding.md R64). -/
def parseRegister (cs : List Char) : Option Nat :=
  match cs with
  | ['R', digit] => parseDigits 10 [digit]
  | _ => none

/-- An operand: register, base register in parentheses, literal or label name (30_encoding.md R62 to R64). DESIGN CHOICE (log 19), safe: R and one
digit is read as a register first, so a label spelled so can be defined but never be named as an operand; spaces may stand inside the parentheses. -/
def parseOperand (cs : List Char) : Option AsmOperand :=
  match parseRegister cs, cs with
  | some n, _ => some (.reg n)
  | none, '(' :: inner =>
    match splitFirst ')' inner with
    | some (name, []) => (parseRegister (trimBlanks name)).map AsmOperand.indirect
    | some (_, _ :: _) | none => none
  | none, _ => if isName cs then some (.label cs) else (parseNumber cs).map AsmOperand.number

/-- No operand, one, or two with a comma between them (30_encoding.md R61). -/
def parseOperands (cs : List Char) : Option (List AsmOperand) :=
  if cs.isEmpty then some []
  else match splitFirst ',' cs with
    | none => (parseOperand (trimBlanks cs)).map (fun x => [x])
    | some (one, two) => (parseOperand (trimBlanks one)).bind (fun x => (parseOperand (trimBlanks two)).map (fun y => [x, y]))

/-- A mnemonic and its operands, or nothing (30_encoding.md R61). DESIGN CHOICE (log 19), safe: the space alone separates the mnemonic from the
operands. -/
def parseInstr (cs : List Char) : Option (Option AsmInstr) :=
  if cs.isEmpty then some none
  else match splitFirst ' ' cs with
    | none => some (some ⟨cs, []⟩)
    | some (name, rest) => (parseOperands (trimBlanks rest)).map (fun xs => some ⟨name, xs⟩)

/-- A source line `[label:] [mnemonic [operand[,operand]]] [;comment]` (30_encoding.md R61). DESIGN CHOICE (log 19), safe: a label may be any name,
one spelled like a register or a mnemonic too, and spaces may stand around it. -/
def parseLine (cs : List Char) : Option AsmLine :=
  let text := cs.takeWhile (· != ';')
  match splitFirst ':' text with
  | none => (parseInstr (trimBlanks text)).map (fun x => ⟨none, x⟩)
  | some (name, rest) =>
    if isName (trimBlanks name) then (parseInstr (trimBlanks rest)).map (fun x => ⟨some (trimBlanks name), x⟩) else none

/-- The lines of a text, or nothing if one of them has no reading. -/
def parseLines : List String → Option (List AsmLine)
  | [] => some []
  | l :: ls => (parseLine l.toList).bind (fun x => (parseLines ls).map (fun xs => x :: xs))

/-- The program words of source lines as text (30_encoding.md R61 to R66). -/
def assembleText (lines : List String) : Option (List InstrWord) := (parseLines lines).bind assemble

end Sys2Proof
end

