-- ==== Sys2Proof/Machine/Micro.lean ====
section
/-! DEFINITION. The micro-architecture layer: the hidden registers IR, MDR, MAR, AC and the two execute phases the source prints cycle by cycle, those
of ST and CALL (10_state.md R21, 20_memory.md R44, 70_reset_and_hazards.md R141 to R144). The architectural step does not use it (10_state.md R22). -/

namespace Sys2Proof.Machine

/-- The architectural state and the four registers hidden from programs (10_state.md R21). -/
structure Micro where
  arch : State
  ir : InstrWord
  mdr : Byte
  mar : Byte
  ac : Byte
deriving DecidableEq, Repr

/-- The control signals that the two sequences name (70_reset_and_hazards.md R144). -/
inductive Signal where
  | wac | rac | wmar | wmdr | wmem | rpc | wpc | rsp | dsp | inm | op3 | op2 | op1 | op0
deriving DecidableEq, Repr

/-- A micro-instruction: the signals asserted in one cycle (70_reset_and_hazards.md R141). -/
abbrev MicroInstr := List Signal

/-- The signal is asserted in the cycle. -/
def asserted (m : MicroInstr) (x : Signal) : Bool := m.contains x

/-- OP3 OP2 OP1 OP0; an unasserted bit is 0 (70_reset_and_hazards.md R142). -/
def aluCode (m : MicroInstr) : BitVec 4 :=
  BitVec.ofBool (asserted m .op3) ++ BitVec.ofBool (asserted m .op2) ++ BitVec.ofBool (asserted m .op1) ++ BitVec.ofBool (asserted m .op0)

/-- ALU port A: the register IR[10:8] (40_alu_function.md R70, 10_state.md R11). -/
def Micro.portA (u : Micro) : Byte := u.arch.readReg (fieldRd u.ir)

/-- ALU port B: the register IR[2:0], or the immediate IR[7:0] under INM (40_alu_function.md R70, 10_state.md R11). -/
def Micro.portB (u : Micro) (m : MicroInstr) : Byte := if asserted m .inm then fieldK u.ir else u.arch.readReg (fieldRs u.ir)

/-- RESULT of the ALU in this cycle, where the table gives it a value. -/
def Micro.result (u : Micro) (m : MicroInstr) : Option Byte :=
  (alu (aluCode m) u.portA (u.portB m) u.arch.flags).bind AluOut.result

/-- The value on the internal bus: the one register that RAC, RPC or RSP drives. DESIGN CHOICE (log 20): with no driver or more than one the bus
has no value; safe. -/
def Micro.bus (u : Micro) (m : MicroInstr) : Option Byte :=
  match asserted m .rac, asserted m .rpc, asserted m .rsp with
  | true, false, false => some u.ac
  | false, true, false => some u.arch.pc
  | false, false, true => some u.arch.sp
  | _, _, _ => none

/-- A register that a write signal loads from `value`, or keeps; no result when it loads a value that does not exist. -/
def loadWhen (write : Bool) (value : Option Byte) (old : Byte) : Option Byte := if write then value else some old

/-- WMEM: MEM(MAR) <- MDR, with the values before the cycle (70_reset_and_hazards.md R144). -/
def Micro.afterWmem (u : Micro) (m : MicroInstr) : State := if asserted m .wmem then u.arch.writeData u.mar u.mdr else u.arch

/-- DSP: decrement SP (70_reset_and_hazards.md R144). -/
def Micro.afterDsp (u : Micro) (m : MicroInstr) : Byte := if asserted m .dsp then u.arch.sp - 1 else u.arch.sp

/-- One clock cycle: every asserted transfer, each reading the values before the cycle (70_reset_and_hazards.md R142, R143). -/
def Micro.cycle (m : MicroInstr) (u : Micro) : Option Micro := do
  let ac ← loadWhen (asserted m .wac) (u.result m) u.ac
  let mar ← loadWhen (asserted m .wmar) (u.bus m) u.mar
  let mdr ← loadWhen (asserted m .wmdr) (u.bus m) u.mdr
  let pc ← loadWhen (asserted m .wpc) (u.bus m) u.arch.pc
  return { arch := { u.afterWmem m with pc := pc, sp := u.afterDsp m }, ir := u.ir, mdr := mdr, mar := mar, ac := ac }

/-- The cycles of an execute phase, one after another. -/
def Micro.run : List MicroInstr → Micro → Option Micro
  | [], u => some u
  | m :: ms, u => (Micro.cycle m u).bind (Micro.run ms)

/-- The fetch phase: IR <- Fetch(pc), pc <- pc + 1; its cycles are not printed (70_reset_and_hazards.md R141). -/
def Micro.fetchPhase (u : Micro) : Micro := { u with ir := u.arch.fetch, arch := u.arch.advance }

/-- The execute phase of ST, four cycles (70_reset_and_hazards.md R142). -/
def stSequence : List MicroInstr := [
  [.wac, .op3, .op2],
  [.wmar, .rac, .wac, .op2, .op1],
  [.wmdr, .rac],
  [.wmem]]

/-- The execute phase of CALL, four cycles (70_reset_and_hazards.md R143). -/
def callSequence : List MicroInstr := [
  [.wmdr, .rpc],
  [.wmar, .rsp, .dsp],
  [.inm, .op3, .op2, .wac, .wmem],
  [.wpc, .rac]]

end Sys2Proof.Machine
end

