-- ==== Sys2Proof/Safety.lean ====
section
/-! DEFINITION. The terms in which claims speak: the invariant of a state, what a state keeps from another, which instructions write what, and what a
run counts. -/

namespace Sys2Proof

open Sys2Proof.Machine

/-- The register an instruction writes: always the one named by IR[10:8] (10_state.md R11). -/
def Instr.destination : Instr → Option Reg
  | .ld d _ | .lds d _ | .add d _ | .sub d _ | .mov d _ | .ror d | .rol d | .addi d _ | .subi d _ | .ldi d _ => some d
  | .st _ _ | .sts _ _ | .call _ | .ret | .breq _ | .brcs _ | .brvs _ | .brlt _ | .jmp _ => none
  | .cp _ _ | .cpi _ _ | .clc | .sec | .stop => none
  | .undocBr _ _ | .undoc01001 _ | .undoc01100 _ | .undoc01101 _ | .undoc01110 _ | .undoc10000 _ => none
  | .undoc10001 _ | .undoc10110 _ | .undoc11001 _ | .undoc11100 _ | .undoc11101 _ | .undoc11110 _ => none

/-- The data cell an instruction writes, computed in the state it executes from (20_memory.md R31). -/
def Instr.storeAddress (s : State) : Instr → Option Byte
  | .st b _ => some ((Address.indirect b).effective s)
  | .sts k _ => some ((Address.direct k).effective s)
  | .call _ => some s.sp
  | .ld _ _ | .lds _ _ | .add _ _ | .sub _ _ | .mov _ _ | .ror _ | .rol _ | .addi _ _ | .subi _ _ | .ldi _ _ => none
  | .ret | .breq _ | .brcs _ | .brvs _ | .brlt _ | .jmp _ => none
  | .cp _ _ | .cpi _ _ | .clc | .sec | .stop => none
  | .undocBr _ _ | .undoc01001 _ | .undoc01100 _ | .undoc01101 _ | .undoc01110 _ | .undoc10000 _ => none
  | .undoc10001 _ | .undoc10110 _ | .undoc11001 _ | .undoc11100 _ | .undoc11101 _ | .undoc11110 _ => none

/-- The byte an instruction writes into its store address: the stored register, or the return address of a CALL (20_memory.md R31). -/
def Instr.storedByte (s : State) : Instr → Option Byte
  | .st _ r | .sts _ r => some (s.readReg r)
  | .call _ => some s.pc
  | .ld _ _ | .lds _ _ | .add _ _ | .sub _ _ | .mov _ _ | .ror _ | .rol _ | .addi _ _ | .subi _ _ | .ldi _ _ => none
  | .ret | .breq _ | .brcs _ | .brvs _ | .brlt _ | .jmp _ => none
  | .cp _ _ | .cpi _ _ | .clc | .sec | .stop => none
  | .undocBr _ _ | .undoc01001 _ | .undoc01100 _ | .undoc01101 _ | .undoc01110 _ | .undoc10000 _ => none
  | .undoc10001 _ | .undoc10110 _ | .undoc11001 _ | .undoc11100 _ | .undoc11101 _ | .undoc11110 _ => none

/-- The instructions whose flag column is "****" (10_state.md R16, 40_alu_function.md R83). -/
def Instr.writesAllFlags : Instr → Bool
  | .add _ _ | .sub _ _ | .cp _ _ | .addi _ _ | .subi _ _ | .cpi _ _ | .ror _ | .rol _ => true
  | .st _ _ | .ld _ _ | .sts _ _ | .lds _ _ | .call _ | .ret | .breq _ | .brcs _ | .brvs _ | .brlt _ | .jmp _ => false
  | .mov _ _ | .ldi _ _ | .clc | .sec | .stop => false
  | .undocBr _ _ | .undoc01001 _ | .undoc01100 _ | .undoc01101 _ | .undoc01110 _ | .undoc10000 _ => false
  | .undoc10001 _ | .undoc10110 _ | .undoc11001 _ | .undoc11100 _ | .undoc11101 _ | .undoc11110 _ => false

/-- The instructions whose flag column is "---*": CLC and SEC (10_state.md R16). -/
def Instr.writesCarryOnly (i : Instr) : Bool := i == .clc || i == .sec

/-- The instructions that may write pc in their execute phase, with the condition under which they do (10_state.md R13). -/
def Instr.transfers (f : Flags) : Instr → Bool
  | .call _ | .ret | .jmp _ => true
  | .breq _ => f.z
  | .brcs _ => f.c
  | .brvs _ => f.v
  | .brlt _ => f.less
  | .st _ _ | .ld _ _ | .sts _ _ | .lds _ _ | .add _ _ | .sub _ _ | .cp _ _ | .mov _ _ | .clc | .sec | .ror _ | .rol _ | .stop => false
  | .addi _ _ | .subi _ _ | .cpi _ _ | .ldi _ _ => false
  | .undocBr _ _ | .undoc01001 _ | .undoc01100 _ | .undoc01101 _ | .undoc01110 _ | .undoc10000 _ => false
  | .undoc10001 _ | .undoc10110 _ | .undoc11001 _ | .undoc11100 _ | .undoc11101 _ | .undoc11110 _ => false

/-- The instruction is a CALL. -/
def Instr.isCall : Instr → Bool
  | .call _ => true
  | .ret | .breq _ | .brcs _ | .brvs _ | .brlt _ | .jmp _ | .st _ _ | .ld _ _ | .sts _ _ | .lds _ _ => false
  | .add _ _ | .sub _ _ | .cp _ _ | .mov _ _ | .clc | .sec | .ror _ | .rol _ | .stop | .addi _ _ | .subi _ _ | .cpi _ _ | .ldi _ _ => false
  | .undocBr _ _ | .undoc01001 _ | .undoc01100 _ | .undoc01101 _ | .undoc01110 _ | .undoc10000 _ => false
  | .undoc10001 _ | .undoc10110 _ | .undoc11001 _ | .undoc11100 _ | .undoc11101 _ | .undoc11110 _ => false

/-- The instruction is a RET. -/
def Instr.isRet (i : Instr) : Bool := i == .ret

namespace Machine

/-- Both memories are in canonical form inside their address spaces (20_memory.md R31, R32). -/
def State.Inv (s : State) : Prop :=
  Memory.wf Config.unlistedCell Config.dmemCells s.dmem = true ∧ Memory.wf Config.unlistedWord Config.pmemWords s.prog = true

/-- Every general register but `d` reads in `t` as in `s`. -/
def KeepsRegsBut (d : Reg) (s t : State) : Prop := ∀ r : Reg, r ≠ d → t.readReg r = s.readReg r

/-- Every general register reads in `t` as in `s`. -/
def KeepsRegs (s t : State) : Prop := ∀ r : Reg, t.readReg r = s.readReg r

/-- Every data cell but the one at `a` reads in `t` as in `s`. -/
def KeepsDataBut (a : Byte) (s t : State) : Prop := ∀ b : Byte, b ≠ a → t.readData b = s.readData b

/-- Every data cell reads in `t` as in `s`. -/
def KeepsData (s t : State) : Prop := ∀ b : Byte, t.readData b = s.readData b

/-- Program memory and run status are the same. -/
def KeepsProgAndStatus (s t : State) : Prop := t.prog = s.prog ∧ t.status = s.status

/-- Nothing but general registers and flags may differ between `s` and `t`, and no general register but `d`. -/
def KeepsAllButRegAndFlags (d : Reg) (s t : State) : Prop :=
  KeepsRegsBut d s t ∧ KeepsData s t ∧ t.pc = s.pc ∧ t.sp = s.sp ∧ KeepsProgAndStatus s t

/-- Nothing but the flags may differ between `s` and `t`. -/
def KeepsAllButFlags (s t : State) : Prop :=
  KeepsRegs s t ∧ KeepsData s t ∧ t.pc = s.pc ∧ t.sp = s.sp ∧ KeepsProgAndStatus s t

/-- Nothing but the data cell at `a` may differ between `s` and `t`. -/
def KeepsAllButCell (a : Byte) (s t : State) : Prop :=
  KeepsRegs s t ∧ KeepsDataBut a s t ∧ t.flags = s.flags ∧ t.pc = s.pc ∧ t.sp = s.sp ∧ KeepsProgAndStatus s t

/-- `f` are the flags that a sum `a + b` of 8-bit values leaves (40_alu_function.md R76, R80 to R82). -/
def FlagsOfSum (a b : Byte) (f : Flags) : Prop :=
  (f.v = true ↔ a.toInt + b.toInt < -128 ∨ 127 < a.toInt + b.toInt) ∧ f.n = (a + b).getLsbD 7 ∧ (f.z = true ↔ a + b = 0x00#8) ∧
    (f.c = true ↔ 255 < a.toNat + b.toNat)

/-- `f` are the flags that a difference `a - b` of 8-bit values leaves (40_alu_function.md R77, R80 to R82). -/
def FlagsOfDifference (a b : Byte) (f : Flags) : Prop :=
  (f.v = true ↔ a.toInt - b.toInt < -128 ∨ 127 < a.toInt - b.toInt) ∧ f.n = (a - b).getLsbD 7 ∧ (f.z = true ↔ a - b = 0x00#8) ∧
    (f.c = true ↔ a.toNat < b.toNat)

/-- A register number shifted to the field IR[10:8], the spec's `d<<8` (30_encoding.md R66). -/
def inRd (r : Reg) : InstrWord := r.toBits.setWidth 16 <<< 8

/-- A register number in the field IR[2:0] (30_encoding.md R66). -/
def inRs (r : Reg) : InstrWord := r.toBits.setWidth 16

/-- An 8-bit value in the field IR[7:0] (30_encoding.md R66). -/
def inK (k : Byte) : InstrWord := k.setWidth 16

/-- `w` is the canonical word of `i`: `i` encodes to it and it decodes to `i` (30_encoding.md R60, R66). -/
def IsWordOf (w : InstrWord) (i : Instr) : Prop := encode i = w ∧ decode w = i

/-- The instruction executed `n` times in a row, from the state its execute phase starts in. -/
def execTimes (i : Instr) : Nat → State → Host.Outcome State Fault Refusal
  | 0, s => .next s
  | n + 1, s =>
    match exec i s with
    | .next t => execTimes i n t
    | .fault r => .fault r
    | .refused r => .refused r

/-- How many of the first `k` steps from `s` execute an instruction that `p` picks. -/
def countSteps (p : Instr → Bool) : Nat → State → Nat
  | 0, _ => 0
  | k + 1, s =>
    match step s with
    | .next t => (if p (decode s.fetch) then 1 else 0) + countSteps p k t
    | .fault _ => 0
    | .refused _ => 0

/-- None of the first `k` steps from `s` executes an instruction that writes the data cell at `a`. -/
def StoresNever (a : Byte) : Nat → State → Prop
  | 0, _ => True
  | k + 1, s => (decode s.fetch).storeAddress s.advance ≠ some a ∧ ∀ t, step s = .next t → StoresNever a k t

end Machine

end Sys2Proof
end

