-- ==== Sys2Proof/Certificates/Slice0/Obligations.lean ====
section
/-! DEFINITION. The statements for the provers, each from the rules of spec/ it names. `exec i s` starts from the state whose pc already holds the
address of the next instruction (10_state.md R13), so "pc kept" means: left at the incremented value. -/

open Sys2Proof Sys2Proof.Machine

-- The step and the encoding

/-- 10_state.md R13, 70_reset_and_hazards.md R146: a running machine runs the instruction its word decodes to, pc incremented first. That the
increment comes first and wraps is the spec's own decision (D4, D5; log entries 11 and 10). -/
def Obligations.StepRunsDecodedInstruction : Prop :=
  ∀ (s : State) (i : Instr), s.status = .running → decode s.fetch = i → i.wellFormed = true → step s = exec i { s with pc := s.pc + 1 }

/-- A word placed with `withFetchWord` is the very next one to run (the model's interface, log entry 16). -/
def Obligations.PlacedWordRunsNext : Prop :=
  ∀ (s : State) (w : InstrWord), step (s.withFetchWord 16 w.toNat) = exec (decode w) (s.withFetchWord 16 w.toNat).advance

/-- 30_encoding.md R66: example words of the rule decode to the instructions it names. -/
def Obligations.SampleWordsDecode : Prop :=
  decode 0x0001 = .st .r1 .r0 ∧ decode 0x0B05 = .ld .r3 .r5 ∧ decode 0x127B = .sts 0x7B .r2 ∧ decode 0x2020 = .call 0x20 ∧
    decode 0x3307 = .brlt 0x07 ∧ decode 0x4001 = .add .r0 .r1 ∧ decode 0x7801 = .mov .r0 .r1 ∧ decode 0xA700 = .ror .r7 ∧
    decode 0xDA00 = .cpi .r2 0x00 ∧ decode 0xF864 = .ldi .r0 0x64

/-- 30_encoding.md R60, R66: decoding undoes encoding, for every well-formed instruction with every operand. -/
def Obligations.DecodeInvertsEncode : Prop := ∀ i : Instr, i.wellFormed = true → decode (encode i) = i

/-- 30_encoding.md R66: the canonical words, as the sums of the rule. -/
def Obligations.EncodeIsTheCanonicalWord : Prop :=
  ∀ (d r : Reg) (k : Byte),
    (encode (.st r d)).toNat = 0x0000 + d.toBits.toNat * 256 + r.toBits.toNat ∧
    (encode (.ld d r)).toNat = 0x0800 + d.toBits.toNat * 256 + r.toBits.toNat ∧
    (encode (.sts k d)).toNat = 0x1000 + d.toBits.toNat * 256 + k.toNat ∧
    (encode (.lds d k)).toNat = 0x1800 + d.toBits.toNat * 256 + k.toNat ∧
    (encode (.call k)).toNat = 0x2000 + k.toNat ∧ (encode .ret).toNat = 0x2800 ∧
    (encode (.breq k)).toNat = 0x3000 + k.toNat ∧ (encode (.brcs k)).toNat = 0x3100 + k.toNat ∧
    (encode (.brvs k)).toNat = 0x3200 + k.toNat ∧ (encode (.brlt k)).toNat = 0x3300 + k.toNat ∧
    (encode (.jmp k)).toNat = 0x3800 + k.toNat ∧
    (encode (.add d r)).toNat = 0x4000 + d.toBits.toNat * 256 + r.toBits.toNat ∧
    (encode (.sub d r)).toNat = 0x5000 + d.toBits.toNat * 256 + r.toBits.toNat ∧
    (encode (.cp d r)).toNat = 0x5800 + d.toBits.toNat * 256 + r.toBits.toNat ∧
    (encode (.mov d r)).toNat = 0x7800 + d.toBits.toNat * 256 + r.toBits.toNat ∧
    (encode .clc).toNat = 0x9000 ∧ (encode .sec).toNat = 0x9800 ∧
    (encode (.ror d)).toNat = 0xA000 + d.toBits.toNat * 256 ∧ (encode (.rol d)).toNat = 0xA800 + d.toBits.toNat * 256 ∧
    (encode .stop).toNat = 0xB800 ∧
    (encode (.addi d k)).toNat = 0xC000 + d.toBits.toNat * 256 + k.toNat ∧
    (encode (.subi d k)).toNat = 0xD000 + d.toBits.toNat * 256 + k.toNat ∧
    (encode (.cpi d k)).toNat = 0xD800 + d.toBits.toNat * 256 + k.toNat ∧
    (encode (.ldi d k)).toNat = 0xF800 + d.toBits.toNat * 256 + k.toNat

/-- 30_encoding.md R55, R66: encoding what a word decodes to gives the word back with its row's unused bits cleared. That they are ignored is the
spec's own decision D6 (log entry 6). -/
def Obligations.ReencodingClearsUnusedBits : Prop :=
  ∀ row ∈ opcodeTable, ∀ w : InstrWord, row.selects w = true → encode (decode w) = w &&& ~~~row.unusedBits

/-- 46_special.md R123: words of a row that differ only in its unused bits are the same instruction. The spec's own decision D6 (log entry 6). -/
def Obligations.UnusedBitsDoNotMatter : Prop :=
  ∀ row ∈ opcodeTable, ∀ w x : InstrWord, row.selects w = true → decode (w ^^^ (x &&& row.unusedBits)) = decode w

/-- 30_encoding.md R56, R57: a word selects a row of the opcode table exactly when it decodes to an instruction of that row. -/
def Obligations.EveryWordSelectsItsRow : Prop :=
  ∀ row ∈ opcodeTable, ∀ w : InstrWord, row.selects w = true ↔ row.mnemonic = (decode w).mnemonic

/-- 30_encoding.md R55, 60_exceptions.md R125: the strict option refuses a word with a non-zero unused bit and changes nothing else. The option
is the spec's alternative to its decision D6 (log entry 6). -/
def Obligations.StrictOptionRefusesUnusedBits : Prop :=
  ∀ row ∈ opcodeTable, ∀ s : State, s.status = .running → row.selects s.fetch = true →
    stepWith true s = if s.fetch &&& row.unusedBits = 0 then stepWith false s else .refused (.undocumented s.fetch s.pc)

/-- 46_special.md R121: the 11 undocumented operation codes, with every value of the other bits, are refused with the word and the address it was
fetched from; so is each of their instructions. The spec's own decision D9 (log entry 9). -/
def Obligations.UndocumentedCodesAreRefused : Prop :=
  (∀ s : State, s.status = .running →
    s.fetch.extractLsb' 11 5 ∈ [0b01001#5, 0b01100#5, 0b01101#5, 0b01110#5, 0b10000#5, 0b10001#5, 0b10110#5, 0b11001#5, 0b11100#5, 0b11101#5,
      0b11110#5] → step s = .refused (.undocumented s.fetch s.pc)) ∧
  ∀ (x : BitVec 11) (s : State),
    ∀ i ∈ [Instr.undoc01001 x, .undoc01100 x, .undoc01101 x, .undoc01110 x, .undoc10000 x, .undoc10001 x, .undoc10110 x, .undoc11001 x,
      .undoc11100 x, .undoc11101 x, .undoc11110 x], exec i s = .refused (.undocumented (encode i) (s.pc - 1))

/-- 46_special.md R122: BRxx with IR[10] = 1 is refused with the word and the address it was fetched from; so is its instruction. The spec's own
decision D8 (log entry 9). -/
def Obligations.UndocumentedConditionsAreRefused : Prop :=
  (∀ s : State, s.status = .running → s.fetch.extractLsb' 11 5 = 0b00110#5 → s.fetch.getLsbD 10 = true →
    step s = .refused (.undocumented s.fetch s.pc)) ∧
  ∀ (cc : BitVec 3) (k : Byte) (s : State), exec (.undocBr cc k) s = .refused (.undocumented (encode (.undocBr cc k)) (s.pc - 1))

-- Memory access

/-- 41_memory_access.md R86: the canonical word of ST; ST completes and writes the stored register into the cell its base register
names; nothing else changes. -/
def Obligations.StStoresIndirect : Prop :=
  ∀ (b r : Reg) (s : State), IsWordOf (0x0000#16 ||| inRd r ||| inRs b) (.st b r) ∧ (Address.indirect b).effective s = s.readReg b ∧
    ∃ t, exec (.st b r) s = .next t ∧
    t.readData ((Address.indirect b).effective s) = s.readReg r ∧ KeepsAllButCell ((Address.indirect b).effective s) s t

/-- 41_memory_access.md R87: the canonical word of LD; LD completes and loads the cell that the old value of its base register names;
no flag, no memory changes. That with d = b the address is the old value is the spec's own decision D22 (log entry 23). -/
def Obligations.LdLoadsIndirect : Prop :=
  ∀ (d b : Reg) (s : State), IsWordOf (0x0800#16 ||| inRd d ||| inRs b) (.ld d b) ∧
    ∃ t, exec (.ld d b) s = .next t ∧
    t.readReg d = s.readData (s.readReg b) ∧ t.flags = s.flags ∧ KeepsAllButRegAndFlags d s t

/-- 41_memory_access.md R88: the canonical word of STS; STS completes and writes the stored register into the cell k; nothing else
changes. -/
def Obligations.StsStoresDirect : Prop :=
  ∀ (k : Byte) (r : Reg) (s : State), IsWordOf (0x1000#16 ||| inRd r ||| inK k) (.sts k r) ∧ (Address.direct k).effective s = k ∧
    ∃ t, exec (.sts k r) s = .next t ∧
    t.readData ((Address.direct k).effective s) = s.readReg r ∧ KeepsAllButCell ((Address.direct k).effective s) s t

/-- 41_memory_access.md R89: the canonical word of LDS; LDS completes and loads the cell k; no flag, no memory changes. -/
def Obligations.LdsLoadsDirect : Prop :=
  ∀ (d : Reg) (k : Byte) (s : State), IsWordOf (0x1800#16 ||| inRd d ||| inK k) (.lds d k) ∧
    ∃ t, exec (.lds d k) s = .next t ∧
    t.readReg d = s.readData k ∧ t.flags = s.flags ∧ KeepsAllButRegAndFlags d s t

-- Control transfer

/-- 42_control_transfer.md R91: CALL completes, writes pc into the cell at sp, decrements sp modulo 2^8 and jumps to k; nothing else changes. That
pc is already the address after the CALL, and that sp wraps, are the spec's own decisions D4 and D5 (log entries 11 and 10). -/
def Obligations.CallPushesPcAndJumps : Prop :=
  ∀ (k : Byte) (s : State), IsWordOf (0x2000#16 ||| inK k) (.call k) ∧
    ∃ t, exec (.call k) s = .next t ∧
    t.readData s.sp = s.pc ∧ t.sp.toNat = (s.sp.toNat + 255) % 256 ∧ t.pc = k ∧
    KeepsDataBut s.sp s t ∧ KeepsRegs s t ∧ t.flags = s.flags ∧ KeepsProgAndStatus s t

/-- 42_control_transfer.md R92: RET completes, increments sp modulo 2^8 and takes pc from the cell at the new sp; nothing else changes. That sp
wraps is the spec's own decision D5 (log entry 10). -/
def Obligations.RetPopsPc : Prop :=
  ∀ s : State, IsWordOf 0x2800#16 .ret ∧
    ∃ t, exec .ret s = .next t ∧
    t.sp.toNat = (s.sp.toNat + 1) % 256 ∧ t.pc = s.readData t.sp ∧
    KeepsData s t ∧ KeepsRegs s t ∧ t.flags = s.flags ∧ KeepsProgAndStatus s t

/-- 42_control_transfer.md R93 to R97: each BRxx completes, jumps exactly when its condition holds and writes nothing but pc; a condition 1xx is
refused, which is the spec's own decision D8 (log entry 9). -/
def Obligations.BranchesFollowTheirConditions : Prop :=
  ∀ (k : Byte) (s : State),
    IsWordOf (0x3000#16 ||| inK k) (.breq k) ∧ IsWordOf (0x3100#16 ||| inK k) (.brcs k) ∧
    IsWordOf (0x3200#16 ||| inK k) (.brvs k) ∧ IsWordOf (0x3300#16 ||| inK k) (.brlt k) ∧
    exec (.breq k) s = .next { s with pc := if s.flags.z = true then k else s.pc } ∧
    exec (.brcs k) s = .next { s with pc := if s.flags.c = true then k else s.pc } ∧
    exec (.brvs k) s = .next { s with pc := if s.flags.v = true then k else s.pc } ∧
    exec (.brlt k) s = .next { s with pc := if s.flags.n ≠ s.flags.v then k else s.pc } ∧
    ∀ cc : BitVec 3, cc.getLsbD 2 = true →
      IsWordOf (0b00110#5 ++ cc ++ k) (.undocBr cc k) ∧ exec (.undocBr cc k) s = .refused (.undocumented (0b00110#5 ++ cc ++ k) (s.pc - 1))

/-- 42_control_transfer.md R98: the canonical word of JMP; JMP completes and writes nothing but pc. -/
def Obligations.JmpJumps : Prop :=
  ∀ (k : Byte) (s : State), IsWordOf (0x3800#16 ||| inK k) (.jmp k) ∧ exec (.jmp k) s = .next { s with pc := k }

/-- 10_state.md R13, 42_control_transfer.md R91, R92: a step that runs a CALL stores the address after the CALL; a RET from any later state with the
same sp and that cell intact returns there and leaves sp as it was before the CALL. The spec's own decisions D4, D5 (log entries 11, 10). -/
def Obligations.CallThenRetReturns : Prop :=
  ∀ (s t u : State) (k : Byte), s.status = .running → decode s.fetch = .call k → step s = .next t →
    t.readData s.sp = s.pc + 1 ∧
    (u.sp = t.sp → u.readData s.sp = t.readData s.sp → ∃ v, exec .ret u = .next v ∧ v.pc = s.pc + 1 ∧ v.sp = s.sp)

-- Arithmetic and compare

/-- 43_arithmetic_compare.md R101: the canonical word of ADD; ADD completes with the sum modulo 2^8 in Rd, its four flags, and nothing
else changed. That with d = r both reads see the old value is the spec's own decision D22 (log entry 23). -/
def Obligations.AddAddsRegisters : Prop :=
  ∀ (d r : Reg) (s : State), IsWordOf (0x4000#16 ||| inRd d ||| inRs r) (.add d r) ∧
    ∃ t, exec (.add d r) s = .next t ∧ t.readReg d = s.readReg d + s.readReg r ∧
    FlagsOfSum (s.readReg d) (s.readReg r) t.flags ∧ KeepsAllButRegAndFlags d s t

/-- 43_arithmetic_compare.md R102: the canonical word of SUB; SUB completes with the difference modulo 2^8 in Rd, its four flags, and
nothing else changed. That with d = r both reads see the old value is the spec's own decision D22 (log entry 23). -/
def Obligations.SubSubtractsRegisters : Prop :=
  ∀ (d r : Reg) (s : State), IsWordOf (0x5000#16 ||| inRd d ||| inRs r) (.sub d r) ∧
    ∃ t, exec (.sub d r) s = .next t ∧ t.readReg d = s.readReg d - s.readReg r ∧
    FlagsOfDifference (s.readReg d) (s.readReg r) t.flags ∧ KeepsAllButRegAndFlags d s t

/-- 43_arithmetic_compare.md R103: the canonical word of CP; CP completes with the flags SUB would give and no register written. -/
def Obligations.CpSetsFlagsOnly : Prop :=
  ∀ (d r : Reg) (s : State), IsWordOf (0x5800#16 ||| inRd d ||| inRs r) (.cp d r) ∧
    ∃ t, exec (.cp d r) s = .next t ∧
    FlagsOfDifference (s.readReg d) (s.readReg r) t.flags ∧ KeepsAllButFlags s t ∧
    ∃ u, exec (.sub d r) s = .next u ∧ u.flags = t.flags

/-- 43_arithmetic_compare.md R104: the canonical word of ADDI; ADDI completes with the sum modulo 2^8 in Rd, its four flags, and nothing
else changed. -/
def Obligations.AddiAddsDatum : Prop :=
  ∀ (d : Reg) (k : Byte) (s : State), IsWordOf (0xC000#16 ||| inRd d ||| inK k) (.addi d k) ∧
    ∃ t, exec (.addi d k) s = .next t ∧ t.readReg d = s.readReg d + k ∧
    FlagsOfSum (s.readReg d) k t.flags ∧ KeepsAllButRegAndFlags d s t

/-- 43_arithmetic_compare.md R105: the canonical word of SUBI; SUBI completes with the difference modulo 2^8 in Rd, its four flags, and
nothing else changed. -/
def Obligations.SubiSubtractsDatum : Prop :=
  ∀ (d : Reg) (k : Byte) (s : State), IsWordOf (0xD000#16 ||| inRd d ||| inK k) (.subi d k) ∧
    ∃ t, exec (.subi d k) s = .next t ∧ t.readReg d = s.readReg d - k ∧
    FlagsOfDifference (s.readReg d) k t.flags ∧ KeepsAllButRegAndFlags d s t

/-- 43_arithmetic_compare.md R106: the canonical word of CPI; CPI completes with the flags SUBI would give and no register written. -/
def Obligations.CpiSetsFlagsOnly : Prop :=
  ∀ (d : Reg) (k : Byte) (s : State), IsWordOf (0xD800#16 ||| inRd d ||| inK k) (.cpi d k) ∧
    ∃ t, exec (.cpi d k) s = .next t ∧
    FlagsOfDifference (s.readReg d) k t.flags ∧ KeepsAllButFlags s t ∧
    ∃ u, exec (.subi d k) s = .next u ∧ u.flags = t.flags

/-- 43_arithmetic_compare.md R100: the previous flags are no input of the six, and for equal operand values the register and the immediate forms
answer the same. -/
def Obligations.ArithmeticDependsOnOperandsOnly : Prop :=
  ∀ (d r : Reg) (s : State),
    exec (.add d r) s = exec (.addi d (s.readReg r)) s ∧ exec (.sub d r) s = exec (.subi d (s.readReg r)) s ∧
    exec (.cp d r) s = exec (.cpi d (s.readReg r)) s ∧
    ∀ (k : Byte) (f : Flags), ∀ i ∈ [Instr.add d r, .sub d r, .cp d r, .addi d k, .subi d k, .cpi d k], exec i { s with flags := f } = exec i s

/-- 40_alu_function.md R71 to R79: the ALU table, every row with every don't-care bit of its operation code; `none` is a dash. V of the right shift
follows the table, and 0001 has no row: the spec's own decisions D18 and D21 (log entries 7 and 13). -/
def Obligations.AluFollowsItsTable : Prop :=
  ∀ (a b : Byte) (f : Flags),
    (∀ op ∈ [0b0000#4, 0b0010#4], alu op a b f = some ⟨none, some ⟨f.v, f.n, f.z, false⟩⟩) ∧
    alu 0b0011 a b f = some ⟨none, some ⟨f.v, f.n, f.z, true⟩⟩ ∧
    (∃ r : Byte, (∀ i < 7, r.getLsbD i = a.getLsbD (i + 1)) ∧ r.getLsbD 7 = f.c ∧
      alu 0b0100 a b f = some ⟨some r, some ⟨f.c ^^ a.getLsbD 0, r.getLsbD 7, r == 0, a.getLsbD 0⟩⟩) ∧
    (∃ r : Byte, (∀ i < 7, r.getLsbD (i + 1) = a.getLsbD i) ∧ r.getLsbD 0 = f.c ∧
      alu 0b0101 a b f = some ⟨some r, some ⟨a.getLsbD 7 ^^ a.getLsbD 6, r.getLsbD 7, r == 0, a.getLsbD 7⟩⟩) ∧
    (∀ op ∈ [0b0110#4, 0b0111#4], alu op a b f = some ⟨some a, none⟩) ∧
    (∀ op ∈ [0b1000#4, 0b1001#4], ∃ (r : Byte) (v : Bool), r = (a.setWidth 9 + b.setWidth 9).setWidth 8 ∧
      (v = true ↔ a.toInt + b.toInt < -128 ∨ 127 < a.toInt + b.toInt) ∧
      alu op a b f = some ⟨some r, some ⟨v, r.getLsbD 7, r == 0, (a.setWidth 9 + b.setWidth 9).getLsbD 8⟩⟩) ∧
    (∀ op ∈ [0b1010#4, 0b1011#4], ∃ (r : Byte) (v : Bool), r = (a.setWidth 9 + (~~~b).setWidth 9 + 1).setWidth 8 ∧
      (v = true ↔ a.toInt - b.toInt < -128 ∨ 127 < a.toInt - b.toInt) ∧
      alu op a b f = some ⟨some r, some ⟨v, r.getLsbD 7, r == 0, decide (a.toNat < b.toNat)⟩⟩) ∧
    (∀ op ∈ [0b1100#4, 0b1101#4, 0b1110#4, 0b1111#4], alu op a b f = some ⟨some b, none⟩) ∧
    alu 0b0001 a b f = none

/-- 40_alu_function.md R82: V of a sum and of a difference, by its meaning and by both bit formulas, which the spec marks as derived. -/
def Obligations.OverflowBitFormulas : Prop :=
  ∀ a b : Byte,
    ((addFlags a b).v = true ↔ ¬(-128 ≤ a.toInt + b.toInt ∧ a.toInt + b.toInt ≤ 127)) ∧
    (addFlags a b).v = (a.getLsbD 7 == b.getLsbD 7 && (addResult a b).getLsbD 7 != a.getLsbD 7) ∧
    (addFlags a b).v = ((a ^^^ addResult a b) &&& (b ^^^ addResult a b)).getLsbD 7 ∧
    ((subFlags a b).v = true ↔ ¬(-128 ≤ a.toInt - b.toInt ∧ a.toInt - b.toInt ≤ 127)) ∧
    (subFlags a b).v = (a.getLsbD 7 != b.getLsbD 7 && (subResult a b).getLsbD 7 != a.getLsbD 7) ∧
    (subFlags a b).v = ((a ^^^ b) &&& (a ^^^ subResult a b)).getLsbD 7

/-- 40_alu_function.md R81: C of a sum is bit 8 of the 9-bit sum, which says that the sum exceeds 255; C of a difference is the borrow. -/
def Obligations.CarryAndBorrow : Prop :=
  ∀ a b : Byte,
    (addFlags a b).c = (a.setWidth 9 + b.setWidth 9).getLsbD 8 ∧ ((addFlags a b).c = true ↔ 255 < a.toNat + b.toNat) ∧
    ((subFlags a b).c = true ↔ a.toNat < b.toNat) ∧ ((subFlags a b).c = true ↔ (a.toNat : Int) - (b.toNat : Int) < 0)

/-- 43_arithmetic_compare.md R107: what each branch decides after CP, SUB, CPI or SUBI; the table is one the spec marks as derived. -/
def Obligations.CompareDecidesBranches : Prop :=
  ∀ (d r : Reg) (x k : Byte) (s t : State) (b : Byte),
    ((exec (.cp d r) s = .next t ∨ exec (.sub d r) s = .next t) ∧ b = s.readReg r) ∨
      ((exec (.cpi d x) s = .next t ∨ exec (.subi d x) s = .next t) ∧ b = x) →
    exec (.breq k) t = .next { t with pc := if s.readReg d = b then k else t.pc } ∧
    exec (.brcs k) t = .next { t with pc := if (s.readReg d).toNat < b.toNat then k else t.pc } ∧
    exec (.brvs k) t =
      .next { t with pc := if (s.readReg d).toInt - b.toInt < -128 ∨ 127 < (s.readReg d).toInt - b.toInt then k else t.pc } ∧
    exec (.brlt k) t = .next { t with pc := if (s.readReg d).toInt < b.toInt then k else t.pc }

-- Data movement

/-- 44_data_movement.md R111: the canonical word of MOV; MOV completes with Rs copied into Rd and nothing else changed, no flag either. -/
def Obligations.MovCopiesRegister : Prop :=
  ∀ (d r : Reg) (s : State), IsWordOf (0x7800#16 ||| inRd d ||| inRs r) (.mov d r) ∧
    ∃ t, exec (.mov d r) s = .next t ∧
    t.readReg d = s.readReg r ∧ t.flags = s.flags ∧ KeepsAllButRegAndFlags d s t ∧ (d = r → t = s)

/-- 44_data_movement.md R112: the canonical word of LDI; LDI completes with k in Rd and nothing else changed, no flag either. -/
def Obligations.LdiLoadsDatum : Prop :=
  ∀ (d : Reg) (k : Byte) (s : State), IsWordOf (0xF800#16 ||| inRd d ||| inK k) (.ldi d k) ∧
    ∃ t, exec (.ldi d k) s = .next t ∧
    t.readReg d = k ∧ t.flags = s.flags ∧ KeepsAllButRegAndFlags d s t

-- Carry and rotate

/-- 45_carry_and_rotate.md R114, R115: the canonical words of CLC and SEC; both complete and change C alone. -/
def Obligations.ClcSecChangeCarryOnly : Prop :=
  IsWordOf 0x9000#16 .clc ∧ IsWordOf 0x9800#16 .sec ∧
  ∀ s : State, exec .clc s = .next { s with flags := { s.flags with c := false } } ∧
    exec .sec s = .next { s with flags := { s.flags with c := true } }

/-- 45_carry_and_rotate.md R116: ROR completes: the old C enters at bit 7, bit 0 leaves into C, V is old C xor bit 0. V follows the ALU table and not
the prose beside it: the spec's own decision D18 (log entry 7). -/
def Obligations.RorRotatesRight : Prop :=
  ∀ (d : Reg) (s : State), IsWordOf (0xA000#16 ||| inRd d) (.ror d) ∧
    ∃ t, exec (.ror d) s = .next t ∧
    (∀ i < 7, (t.readReg d).getLsbD i = (s.readReg d).getLsbD (i + 1)) ∧ (t.readReg d).getLsbD 7 = s.flags.c ∧
    t.flags.c = (s.readReg d).getLsbD 0 ∧ t.flags.n = s.flags.c ∧ (t.flags.z = true ↔ t.readReg d = 0x00#8) ∧
    t.flags.v = (s.flags.c ^^ (s.readReg d).getLsbD 0) ∧ KeepsAllButRegAndFlags d s t

/-- 45_carry_and_rotate.md R117: the canonical word of ROL; ROL completes: the old C enters at bit 0, bit 7 leaves into C, V is bit 7
xor bit 6. -/
def Obligations.RolRotatesLeft : Prop :=
  ∀ (d : Reg) (s : State), IsWordOf (0xA800#16 ||| inRd d) (.rol d) ∧
    ∃ t, exec (.rol d) s = .next t ∧
    (∀ i < 7, (t.readReg d).getLsbD (i + 1) = (s.readReg d).getLsbD i) ∧ (t.readReg d).getLsbD 0 = s.flags.c ∧
    t.flags.c = (s.readReg d).getLsbD 7 ∧ t.flags.n = (s.readReg d).getLsbD 6 ∧ (t.flags.z = true ↔ t.readReg d = 0x00#8) ∧
    t.flags.v = ((s.readReg d).getLsbD 7 ^^ (s.readReg d).getLsbD 6) ∧ KeepsAllButRegAndFlags d s t

/-- 45_carry_and_rotate.md R118, marked as derived there: ROR then ROL, and ROL then ROR, restore the register and C, with V, N and Z as the second
one computes them. V after ROR is the spec's own decision D18 (log entry 7). -/
def Obligations.RotatesAreInverse : Prop :=
  ∀ (d : Reg) (s t u : State),
    (exec (.ror d) s = .next t → exec (.rol d) t = .next u →
      u.regs = s.regs ∧ u.flags = { shlFlags (t.readReg d) t.flags.c with c := s.flags.c }) ∧
    (exec (.rol d) s = .next t → exec (.ror d) t = .next u →
      u.regs = s.regs ∧ u.flags = { shrFlags .table (t.readReg d) t.flags.c with c := s.flags.c })

/-- 45_carry_and_rotate.md R116, R117: nine ROR, or nine ROL, of one register restore it and C and change no other register, cell or pointer. -/
def Obligations.NineRotationsRestore : Prop :=
  ∀ (d : Reg) (s : State), ∀ i ∈ [Instr.ror d, .rol d], ∃ t, execTimes i 9 s = .next t ∧
    t.regs = s.regs ∧ t.flags.c = s.flags.c ∧ t.dmem = s.dmem ∧ t.pc = s.pc ∧ t.sp = s.sp ∧ KeepsProgAndStatus s t

-- STOP and the run

/-- 46_special.md R119: STOP completes, the status becomes Stopped, pc keeps the address of the STOP plus 1 and nothing else changes; the stopped
machine has no step. That the wait is the end of the run is the spec's own decision D10 (log entry 8). -/
def Obligations.StopIsTerminal : Prop :=
  IsWordOf 0xB800#16 .stop ∧
  (∀ s : State, exec .stop s = .next { s with status := .stopped }) ∧
  (∀ s t : State, s.status = .running → decode s.fetch = .stop → step s = .next t →
    t = { s with pc := s.pc + 1, status := .stopped } ∧ ∀ u, step t ≠ .next u)

/-- 70_reset_and_hazards.md R147: a step ends in the status Stopped exactly when the word it fetched is a STOP. The spec's own decision D24 (log
entry 8). -/
def Obligations.OnlyStopStops : Prop :=
  ∀ s t : State, step s = .next t → (t.status = .stopped ↔ decode s.fetch = .stop)

/-- 60_exceptions.md R124, 20_memory.md R36: a running machine on a documented word always completes its step; it is refused on an undocumented word
and never faults. A fault is the stopped machine's answer and no other's. The model's outcomes of log entries 8 and 9. -/
def Obligations.RunningStepCompletesOrIsUndocumented : Prop :=
  ∀ s : State, (s.status = .running → (decode s.fetch).documented = true → ∃ t, step s = .next t) ∧
    (s.status = .running → (decode s.fetch).documented = false → step s = .refused (.undocumented s.fetch s.pc)) ∧
    ∀ r : Fault, step s = .fault r ↔ s.status = .stopped

-- The whole machine

/-- 20_memory.md R42, marked as derived there: no run changes program memory. -/
def Obligations.ProgramMemoryIsConstant : Prop :=
  ∀ (k : Nat) (s t : State), Sys2Proof.core.run k s = .next t → t.prog = s.prog

/-- 10_state.md R11: the only register a step can change is the one IR[10:8] names, and only for the instructions that write one. -/
def Obligations.RegistersChangeOnlyAtDestination : Prop :=
  ∀ (s t : State) (r : Reg), step s = .next t → (decode s.fetch).destination ≠ some r → t.readReg r = s.readReg r

/-- 20_memory.md R31: the only data cell a step can change is the one that ST, STS or CALL addresses. -/
def Obligations.DataChangesOnlyAtStoreAddress : Prop :=
  ∀ (s t : State) (a : Byte), step s = .next t → (decode s.fetch).storeAddress { s with pc := s.pc + 1 } ≠ some a →
    t.readData a = s.readData a

/-- 20_memory.md R39 item 2, the spec's own decision D17 (log entry 17): a cell that no step of a run writes still reads what it read before the run,
and a cell that a step writes reads the byte written, there and after every run that does not write it again. -/
def Obligations.ReadReturnsTheLastWrite : Prop :=
  (∀ (k : Nat) (s t : State) (a : Byte), Sys2Proof.core.run k s = .next t → StoresNever a k s → t.readData a = s.readData a) ∧
  ∀ (k : Nat) (s t u : State) (a x : Byte), step s = .next t → (decode s.fetch).storeAddress s.advance = some a →
    (decode s.fetch).storedByte s.advance = some x → Sys2Proof.core.run k t = .next u → StoresNever a k t → u.readData a = x

/-- 10_state.md R16, 40_alu_function.md R83: the flags change only in the instructions with '*' in their flag column; CLC and SEC change only C,
which is the spec's own reading D19 of the column (log entry 21). -/
def Obligations.FlagsChangeOnlyWhereListed : Prop :=
  ∀ s t : State, step s = .next t → (decode s.fetch).writesAllFlags = false →
    t.flags.v = s.flags.v ∧ t.flags.n = s.flags.n ∧ t.flags.z = s.flags.z ∧
    ((decode s.fetch).writesCarryOnly = false → t.flags.c = s.flags.c)

/-- 10_state.md R13, R14: every step but a CALL, a RET, a JMP and a BRxx whose condition holds leaves pc one higher, modulo 2^8. The wrap is the
spec's own decision D5 (log entry 10). -/
def Obligations.PcAdvancesUnlessTransferred : Prop :=
  ∀ s t : State, step s = .next t → (decode s.fetch).transfers s.flags = false → t.pc.toNat = (s.pc.toNat + 1) % 256

/-- 10_state.md R19: CALL decrements sp, RET increments it, both modulo 2^8, and no other instruction changes it. The wrap is the spec's own
decision D5 (log entry 10). -/
def Obligations.OnlyCallAndRetMoveSp : Prop :=
  ∀ s t : State, step s = .next t →
    t.sp = if (decode s.fetch).isCall = true then s.sp - 1 else if (decode s.fetch).isRet = true then s.sp + 1 else s.sp

/-- 10_state.md R19: along every run, sp is its first value less the calls executed plus the returns executed, modulo 2^8. The wrap is the spec's own
decision D5 (log entry 10). -/
def Obligations.SpCountsCallsAndReturns : Prop :=
  ∀ (k : Nat) (s t : State), Sys2Proof.core.run k s = .next t →
    t.sp = s.sp - BitVec.ofNat 8 (countSteps Instr.isCall k s) + BitVec.ofNat 8 (countSteps Instr.isRet k s)

/-- 20_memory.md R31, R32: every step keeps both memories in canonical form inside their address spaces. What an unlisted cell reads as is the model's
choice (log entries 4 and 5). -/
def Obligations.StepKeepsInvariant : Prop := ∀ s t : State, s.Inv → step s = .next t → t.Inv

/-- The state after reset meets the invariant, and so does every launch whose memories are in canonical form. The canonical form is the model's (log
entries 4 and 5). -/
def Obligations.ResetMeetsInvariant : Prop :=
  State.reset.Inv ∧ ∀ p : Launch, Memory.wf Config.unlistedCell Config.dmemCells p.dmem = true →
    Memory.wf Config.unlistedWord Config.pmemWords p.prog = true → (State.launch p).Inv

/-- 70_reset_and_hazards.md R136: for every launch, reset leaves pc 0 and the status Running, and the first instruction executed is the word at
program address 0. That its execution starts with pc already incremented is the spec's own decision D4 (10_state.md R13, log entry 11); the status
and the entry point are marked as derived in 10_state.md R27. -/
def Obligations.ResetStartsAtZero : Prop :=
  ∀ p : Launch, (State.launch p).pc = 0 ∧ (State.launch p).status = .running ∧
    step (State.launch p) = exec (decode ((State.launch p).readProg 0)) (State.launch p).advance

/-- The model's canonical form (log entry 4): two data memories in it that read the same at every address are the same list. -/
def Obligations.CanonicalMemoriesAreEqual : Prop :=
  ∀ m n : Memory 8, Memory.wf Config.unlistedCell Config.dmemCells m = true → Memory.wf Config.unlistedCell Config.dmemCells n = true →
    (∀ a : Byte, Memory.read Config.unlistedCell a.toNat m = Memory.read Config.unlistedCell a.toNat n) → m = n

-- The micro-architecture

/-- 70_reset_and_hazards.md R142: the four cycles of ST, from every content of the hidden registers, do to the architectural state what ST does. -/
def Obligations.StSequenceRefinesSt : Prop :=
  ∀ (u : Micro) (b r : Reg), decode u.ir = .st b r → stSequence.length = 4 ∧
    ∃ v, Micro.run stSequence u = some v ∧ exec (.st b r) u.arch = .next v.arch ∧
      v.mar = u.arch.readReg b ∧ v.mdr = u.arch.readReg r ∧ v.ac = u.arch.readReg r ∧ v.ir = u.ir

/-- 70_reset_and_hazards.md R143: the four cycles of CALL, from every content of the hidden registers, do to the architectural state what CALL
does; MAR takes the old sp. -/
def Obligations.CallSequenceRefinesCall : Prop :=
  ∀ (u : Micro) (k : Byte), decode u.ir = .call k → callSequence.length = 4 ∧
    ∃ v, Micro.run callSequence u = some v ∧ exec (.call k) u.arch = .next v.arch ∧
      v.mar = u.arch.sp ∧ v.mdr = u.arch.pc ∧ v.ac = k ∧ v.ir = u.ir

/-- 70_reset_and_hazards.md R141, R142, R143: the fetch phase and then the printed cycles of an ST or a CALL are one step of the machine. -/
def Obligations.MicroCyclesRefineTheStep : Prop :=
  ∀ u : Micro, u.arch.status = .running →
    (∀ b r : Reg, decode u.arch.fetch = .st b r → ∃ v, Micro.run stSequence u.fetchPhase = some v ∧ step u.arch = .next v.arch) ∧
    (∀ k : Byte, decode u.arch.fetch = .call k → ∃ v, Micro.run callSequence u.fetchPhase = some v ∧ step u.arch = .next v.arch)

-- The assembler

/-- 30_encoding.md R62: the assembly line of every documented instruction, in the rule's operand order, assembles to that instruction, whatever
labels are defined; BRLO assembles to what BRCS does (R65). -/
def Obligations.AssemblyLineAssembles : Prop :=
  (∀ (ls : Labels) (i : Instr), i.documented = true → ∃ x, asmOf i = some x ∧ assembleInstr ls x = some i) ∧
  ∀ (ls : Labels) (ops : List AsmOperand), assembleInstr ls ⟨"BRLO".toList, ops⟩ = assembleInstr ls ⟨"BRCS".toList, ops⟩

/-- 30_encoding.md R63, R64: a datum is accepted exactly in -128..255 and encoded modulo 2^8, an address exactly in 0..255, a register exactly when
its number is 0 to 7. The ranges are the spec's own decision D20 (log entry 19). -/
def Obligations.AssemblerAcceptsRanges : Prop :=
  (∀ (n : Int) (k : Byte), asmDatum n = some k ↔ (-128 ≤ n ∧ n ≤ 255 ∧ (k.toNat : Int) = n % 256)) ∧
  (∀ (n : Int) (k : Byte), asmAddress n = some k ↔ (0 ≤ n ∧ n ≤ 255 ∧ (k.toNat : Int) = n)) ∧
  ∀ (n : Nat) (r : Reg), asmReg n = some r ↔ n = r.toBits.toNat
end

