-- ==== Sys2Proof/Laws/Assembler.lean ====
section
/-! SUPPORT. Operands written out and read back. -/

namespace Sys2Proof

@[simp] theorem register_asmOfReg (r : Reg) : AsmOperand.register (asmOfReg r) = some r := by cases r <;> rfl

@[simp] theorem base_asmOfBase (r : Reg) : AsmOperand.base (asmOfBase r) = some r := by cases r <;> rfl

@[simp] theorem datum_asmOfByte (k : Byte) : AsmOperand.datum (asmOfByte k) = some k := by
  have := k.isLt
  simp [asmOfByte, AsmOperand.datum, asmDatum]
  omega

@[simp] theorem dataAddress_asmOfByte (k : Byte) : AsmOperand.dataAddress (asmOfByte k) = some k := by
  have := k.isLt
  simp [asmOfByte, AsmOperand.dataAddress, asmAddress]
  omega

@[simp] theorem target_asmOfByte (ls : Labels) (k : Byte) : AsmOperand.target ls (asmOfByte k) = some k := by
  have := k.isLt
  simp [asmOfByte, AsmOperand.target, asmAddress]
  omega

end Sys2Proof
end

