-- ==== Sys2Proof/Laws/Decode.lean ====
section
/-! SUPPORT. The fields of a word put together from fields, and what decoding can answer. -/

namespace Sys2Proof

@[simp] theorem Reg.ofBits_toBits (r : Reg) : Reg.ofBits r.toBits = r := by cases r <;> rfl

@[simp] theorem Reg.toBits_ofBits (n : BitVec 3) : (Reg.ofBits n).toBits = n := by revert n; decide

theorem extract_append_high {m n : Nat} (x : BitVec m) (y : BitVec n) : (x ++ y).extractLsb' n m = x := by
  ext i hi
  simp [BitVec.getLsbD_append, BitVec.getLsbD_eq_getElem hi]

theorem extract_append_low {m n start len : Nat} (x : BitVec m) (y : BitVec n) (h : start + len ≤ n) :
    (x ++ y).extractLsb' start len = y.extractLsb' start len := by
  ext i hi
  have hn : start + i < n := by omega
  simp [BitVec.getLsbD_append, hn]

theorem extract_append_skip {m n start len : Nat} (x : BitVec m) (y : BitVec n) :
    (x ++ y).extractLsb' (n + start) len = x.extractLsb' start len := by
  ext i hi
  have hn : ¬ n + start + i < n := by omega
  have he : n + start + i - n = start + i := by omega
  simp [BitVec.getLsbD_append, hn, he]

theorem extract_all {n : Nat} (x : BitVec n) : x.extractLsb' 0 n = x := by
  ext i hi
  simp

section Format

variable (op : BitVec 5) (cc : BitVec 3) (rd rs : Reg) (k : Byte) (x : BitVec 11)

@[simp] theorem fieldOp_formatA : fieldOp (formatA op rd rs) = op :=
  (extract_append_skip (start := 8) _ _).trans ((extract_append_skip (start := 3) _ _).trans (extract_append_high _ _))

@[simp] theorem fieldRd_formatA : fieldRd (formatA op rd rs) = rd := by
  have h : (formatA op rd rs).extractLsb' 8 3 = rd.toBits :=
    (extract_append_skip (start := 5) _ _).trans ((extract_append_skip (start := 0) _ _).trans
      ((extract_append_low _ _ (by omega)).trans (extract_all _)))
  simp [fieldRd, h]

@[simp] theorem fieldRs_formatA : fieldRs (formatA op rd rs) = rs := by
  have h : (formatA op rd rs).extractLsb' 0 3 = rs.toBits := (extract_append_low _ _ (by omega)).trans (extract_all _)
  simp [fieldRs, h]

@[simp] theorem fieldOp_formatB : fieldOp (formatB op rd k) = op :=
  (extract_append_skip (start := 3) _ _).trans (extract_append_high _ _)

@[simp] theorem fieldRd_formatB : fieldRd (formatB op rd k) = rd := by
  have h : (formatB op rd k).extractLsb' 8 3 = rd.toBits :=
    (extract_append_skip (start := 0) _ _).trans ((extract_append_low _ _ (by omega)).trans (extract_all _))
  simp [fieldRd, h]

@[simp] theorem fieldK_formatB : fieldK (formatB op rd k) = k := (extract_append_low _ _ (by omega)).trans (extract_all _)

@[simp] theorem fieldOp_formatC : fieldOp (formatC op cc k) = op :=
  (extract_append_skip (start := 3) _ _).trans (extract_append_high _ _)

@[simp] theorem fieldCc_formatC : fieldCc (formatC op cc k) = cc :=
  (extract_append_skip (start := 0) _ _).trans ((extract_append_low _ _ (by omega)).trans (extract_all _))

@[simp] theorem fieldK_formatC : fieldK (formatC op cc k) = k := (extract_append_low _ _ (by omega)).trans (extract_all _)

@[simp] theorem fieldOp_formatRest : fieldOp (formatRest op x) = op := extract_append_high _ _

@[simp] theorem fieldRest_formatRest : fieldRest (formatRest op x) = x := (extract_append_low _ _ (by omega)).trans (extract_all _)

end Format

section Bits

variable (op : BitVec 5) (cc : BitVec 3) (rd rs : Reg) (k : Byte) (x : BitVec 11) (i : Nat)

/-- The bits of a word in format A. -/
theorem getLsbD_formatA : (formatA op rd rs).getLsbD i =
    if i < 3 then rs.toBits.getLsbD i else if i < 8 then false else if i < 11 then rd.toBits.getLsbD (i - 8) else op.getLsbD (i - 11) := by
  rw [formatA, BitVec.getLsbD_append]
  by_cases h3 : i < 3
  · simp [h3]
  · rw [if_neg h3, if_neg h3, BitVec.getLsbD_append]
    by_cases h8 : i < 8
    · simp [h8, show i - 3 < 5 by omega]
    · rw [if_neg h8, if_neg (by omega), BitVec.getLsbD_append]
      by_cases h11 : i < 11
      · rw [if_pos h11, if_pos (by omega), show i - 3 - 5 = i - 8 by omega]
      · rw [if_neg h11, if_neg (by omega), show i - 3 - 5 - 3 = i - 11 by omega]

/-- The bits of a word in format C. -/
theorem getLsbD_formatC : (formatC op cc k).getLsbD i =
    if i < 8 then k.getLsbD i else if i < 11 then cc.getLsbD (i - 8) else op.getLsbD (i - 11) := by
  rw [formatC, BitVec.getLsbD_append]
  by_cases h8 : i < 8
  · simp [h8]
  · rw [if_neg h8, if_neg h8, BitVec.getLsbD_append]
    by_cases h11 : i < 11
    · simp [h11, show i - 8 < 3 by omega]
    · simp [h11, show ¬ i - 8 < 3 by omega, show i - 8 - 3 = i - 11 by omega]

/-- Format B is format C with a register number for the condition. -/
theorem formatB_eq_formatC : formatB op rd k = formatC op rd.toBits k := rfl

/-- The bits of an operation code followed by eleven bits. -/
theorem getLsbD_formatRest : (formatRest op x).getLsbD i = if i < 11 then x.getLsbD i else op.getLsbD (i - 11) := by
  rw [formatRest, BitVec.getLsbD_append]

theorem toNat_append_add {m n : Nat} (y : BitVec m) (z : BitVec n) : (y ++ z).toNat = y.toNat * 2 ^ n + z.toNat := by
  rw [BitVec.toNat_append, ← Nat.shiftLeft_add_eq_or_of_lt z.isLt, Nat.shiftLeft_eq]

/-- The value of a word in format A. -/
theorem toNat_formatA : (formatA op rd rs).toNat = op.toNat * 2048 + rd.toBits.toNat * 256 + rs.toBits.toNat := by
  rw [formatA, toNat_append_add, toNat_append_add, toNat_append_add]
  simp
  omega

/-- The value of a word in format C. -/
theorem toNat_formatC : (formatC op cc k).toNat = op.toNat * 2048 + cc.toNat * 256 + k.toNat := by
  rw [formatC, toNat_append_add, toNat_append_add]
  omega

/-- The value of an operation code followed by eleven bits. -/
theorem toNat_formatRest : (formatRest op x).toNat = op.toNat * 2048 + x.toNat := toNat_append_add op x

/-- The mask of the operation code. -/
theorem formatRest_and_opMask : formatRest op x &&& 0xF800#16 = formatRest op 0 := by
  apply BitVec.eq_of_getLsbD_eq
  intro j hj
  rw [BitVec.getLsbD_and, getLsbD_formatRest, getLsbD_formatRest]
  interval_cases j <;> simp

/-- The mask of the operation code and the branch condition. -/
theorem formatC_and_ccMask : formatC op cc k &&& 0xFF00#16 = formatC op cc 0 := by
  apply BitVec.eq_of_getLsbD_eq
  intro j hj
  rw [BitVec.getLsbD_and, getLsbD_formatC, getLsbD_formatC]
  interval_cases j <;> simp

end Bits

/-- A word is its operation code and the eleven bits below it. -/
theorem word_eq_formatRest (w : InstrWord) : w = formatRest (fieldOp w) (fieldRest w) := by
  apply BitVec.eq_of_getLsbD_eq
  intro i hi
  rw [formatRest, fieldOp, fieldRest, BitVec.getLsbD_append, BitVec.getLsbD_extractLsb', BitVec.getLsbD_extractLsb']
  by_cases h : i < 11
  · simp [h]
  · have hlt : i - 11 < 5 := by omega
    have hadd : 11 + (i - 11) = i := by omega
    simp [h, hlt, hadd]

/-- A word is its operation code, its three bits below and its low byte. -/
theorem word_eq_formatC (w : InstrWord) : w = formatC (fieldOp w) (fieldCc w) (fieldK w) := by
  apply BitVec.eq_of_getLsbD_eq
  intro i hi
  rw [getLsbD_formatC, fieldOp, fieldCc, fieldK, BitVec.getLsbD_extractLsb', BitVec.getLsbD_extractLsb', BitVec.getLsbD_extractLsb']
  by_cases h8 : i < 8
  · simp [h8]
  · by_cases h11 : i < 11
    · simp [h8, h11, show i - 8 < 3 by omega, show 8 + (i - 8) = i by omega]
    · simp [h8, h11, show i - 11 < 5 by omega, show 11 + (i - 11) = i by omega]

/-- The operation code under its mask. -/
theorem and_opMask (w : InstrWord) : w &&& 0xF800#16 = formatRest (fieldOp w) 0 := by
  rw (occs := .pos [1]) [word_eq_formatRest w]
  exact formatRest_and_opMask _ _

/-- The operation code and the condition under their mask. -/
theorem and_ccMask (w : InstrWord) : w &&& 0xFF00#16 = formatC (fieldOp w) (fieldCc w) 0 := by
  rw (occs := .pos [1]) [word_eq_formatC w]
  exact formatC_and_ccMask _ _ _

/-- The register field and the condition field are the same three bits (30_encoding.md R51). -/
theorem fieldRd_toBits (w : InstrWord) : (fieldRd w).toBits = fieldCc w := Reg.toBits_ofBits _

/-- A statement over operation codes is one over 32 cases. -/
theorem op_cases (P : BitVec 5 → Prop) (h : ∀ n : Fin 32, P (BitVec.ofFin n)) (op : BitVec 5) : P op := h op.toFin

/-- Everything the branch decoder can answer. -/
theorem decodeBranch_cases (cc : BitVec 3) (k : Byte) :
    (cc = 0b000 ∧ decodeBranch cc k = .breq k) ∨ (cc = 0b001 ∧ decodeBranch cc k = .brcs k) ∨ (cc = 0b010 ∧ decodeBranch cc k = .brvs k) ∨
      (cc = 0b011 ∧ decodeBranch cc k = .brlt k) ∨ (cc.getLsbD 2 = true ∧ decodeBranch cc k = .undocBr cc k) := by
  revert cc
  simp only [decodeBranch]
  intro cc
  have h : cc = 0#3 ∨ cc = 1#3 ∨ cc = 2#3 ∨ cc = 3#3 ∨ cc = 4#3 ∨ cc = 5#3 ∨ cc = 6#3 ∨ cc = 7#3 := by revert cc; decide
  rcases h with h | h | h | h | h | h | h | h <;> subst h <;> simp

theorem decodeBranch_wellFormed (cc : BitVec 3) (k : Byte) : (decodeBranch cc k).wellFormed = true := by
  rcases decodeBranch_cases cc k with h | h | h | h | h
  case inr.inr.inr.inr => exact (congrArg Instr.wellFormed h.2).trans h.1
  all_goals exact congrArg Instr.wellFormed h.2

/-- What the decoder answers is well formed. -/
theorem decode_wellFormed (w : InstrWord) : (decode w).wellFormed = true := by
  have h : ∀ op, fieldOp w = op → (decode w).wellFormed = true := by
    apply op_cases
    intro n hop
    unfold decode
    rw [hop]
    fin_cases n <;> first | rfl | exact decodeBranch_wellFormed _ _
  exact h _ rfl

/-- A word that decodes to ST holds its two registers in its fields. -/
theorem fields_of_decode_st {w : InstrWord} {b r : Reg} (h : decode w = .st b r) : fieldRs w = b ∧ fieldRd w = r := by
  have key : ∀ op, fieldOp w = op → decode w = .st b r → fieldRs w = b ∧ fieldRd w = r := by
    apply op_cases
    intro n hop hd
    unfold decode at hd
    rw [hop] at hd
    fin_cases n <;> first
      | exact Instr.st.inj hd
      | cases hd
      | (rcases decodeBranch_cases (fieldCc w) (fieldK w) with h | h | h | h | h <;> cases h.2.symm.trans hd)
  exact key _ rfl h

/-- A word that decodes to CALL holds its target in its low byte. -/
theorem field_of_decode_call {w : InstrWord} {k : Byte} (h : decode w = .call k) : fieldK w = k := by
  have key : ∀ op, fieldOp w = op → decode w = .call k → fieldK w = k := by
    apply op_cases
    intro n hop hd
    unfold decode at hd
    rw [hop] at hd
    fin_cases n <;> first
      | exact Instr.call.inj hd
      | cases hd
      | (rcases decodeBranch_cases (fieldCc w) (fieldK w) with h | h | h | h | h <;> cases h.2.symm.trans hd)
  exact key _ rfl h

/-- The default decoder refuses no word. -/
@[simp] theorem decodeWith_false (w : InstrWord) : decodeWith false w = some (decode w) := rfl

/-- The strict decoder reads a word exactly when it is the canonical word of its instruction. -/
theorem decodeWith_true (w : InstrWord) : decodeWith true w = if encode (decode w) = w then some (decode w) else none := by
  by_cases h : encode (decode w) = w <;> simp [decodeWith, h]

end Sys2Proof
end

