-- ==== Sys2Proof/Laws/Flags.lean ====
section
/-! SUPPORT. What each flag function says, in arithmetic. -/

namespace Sys2Proof.Machine

theorem isZero_iff (r : Byte) : isZero r = true ↔ r = 0x00#8 := by simp [isZero]

theorem outsideSigned_iff (x : Int) : outsideSigned x = true ↔ x < -128 ∨ 127 < x := by simp [outsideSigned]

theorem carryAdd_iff (a b : Byte) : carryAdd a b = true ↔ 255 < a.toNat + b.toNat := by simp [carryAdd]

theorem borrowSub_iff (a b : Byte) : borrowSub a b = true ↔ a.toNat < b.toNat := by simp [borrowSub]

theorem overflowAdd_iff (a b : Byte) : overflowAdd a b = true ↔ a.toInt + b.toInt < -128 ∨ 127 < a.toInt + b.toInt :=
  outsideSigned_iff _

theorem overflowSub_iff (a b : Byte) : overflowSub a b = true ↔ a.toInt - b.toInt < -128 ∨ 127 < a.toInt - b.toInt :=
  outsideSigned_iff _

/-- Bit 7 of SHR is the carry that enters, the other bits move one place down. -/
theorem getLsbD_shrResult (a : Byte) (cin : Bool) (i : Nat) :
    (shrResult a cin).getLsbD i = if i < 7 then a.getLsbD (i + 1) else decide (i = 7) && cin := by
  rw [shrResult, BitVec.getLsbD_append]
  by_cases h : i < 7
  · simp [h, Nat.add_comm]
  · by_cases h7 : i = 7
    · subst h7
      simp
    · simp [h, h7, show ¬ i - 7 = 0 by omega]

/-- Bit 0 of SHL is the carry that enters, the other bits move one place up. -/
theorem getLsbD_shlResult (a : Byte) (cin : Bool) (i : Nat) :
    (shlResult a cin).getLsbD i = if i = 0 then cin else decide (i < 8) && a.getLsbD (i - 1) := by
  rw [shlResult, BitVec.getLsbD_append]
  by_cases h : i = 0
  · subst h
    simp
  · by_cases h8 : i < 8
    · simp [h, h8, show ¬ i < 1 by omega, show i - 1 < 7 by omega]
    · simp [h, h8, show ¬ i < 1 by omega, show ¬ i - 1 < 7 by omega]

/-- The operation 0001 has no row, whatever its inputs (40_alu_function.md R79). -/
theorem alu_none : alu 0b0001 = fun _ _ _ => none := rfl

end Sys2Proof.Machine
end

