-- ==== Sys2Proof/Laws/State.lean ====
section
/-! SUPPORT. One lemma per field and update of State, all true by rfl, so that no proof unfolds a record update; and what each reader of the state sees
after each update. -/

namespace Sys2Proof.Machine

variable (s : State)

@[simp] theorem State.writeReg_regs (r : Reg) (x : Byte) : (s.writeReg r x).regs = s.regs.set r x := rfl
@[simp] theorem State.writeReg_pc (r : Reg) (x : Byte) : (s.writeReg r x).pc = s.pc := rfl
@[simp] theorem State.writeReg_sp (r : Reg) (x : Byte) : (s.writeReg r x).sp = s.sp := rfl
@[simp] theorem State.writeReg_flags (r : Reg) (x : Byte) : (s.writeReg r x).flags = s.flags := rfl
@[simp] theorem State.writeReg_dmem (r : Reg) (x : Byte) : (s.writeReg r x).dmem = s.dmem := rfl
@[simp] theorem State.writeReg_prog (r : Reg) (x : Byte) : (s.writeReg r x).prog = s.prog := rfl
@[simp] theorem State.writeReg_status (r : Reg) (x : Byte) : (s.writeReg r x).status = s.status := rfl

@[simp] theorem State.setFlags_regs (f : Flags) : (s.setFlags f).regs = s.regs := rfl
@[simp] theorem State.setFlags_pc (f : Flags) : (s.setFlags f).pc = s.pc := rfl
@[simp] theorem State.setFlags_sp (f : Flags) : (s.setFlags f).sp = s.sp := rfl
@[simp] theorem State.setFlags_flags (f : Flags) : (s.setFlags f).flags = f := rfl
@[simp] theorem State.setFlags_dmem (f : Flags) : (s.setFlags f).dmem = s.dmem := rfl
@[simp] theorem State.setFlags_prog (f : Flags) : (s.setFlags f).prog = s.prog := rfl
@[simp] theorem State.setFlags_status (f : Flags) : (s.setFlags f).status = s.status := rfl

@[simp] theorem State.setPc_regs (t : Byte) : (s.setPc t).regs = s.regs := rfl
@[simp] theorem State.setPc_pc (t : Byte) : (s.setPc t).pc = t := rfl
@[simp] theorem State.setPc_sp (t : Byte) : (s.setPc t).sp = s.sp := rfl
@[simp] theorem State.setPc_flags (t : Byte) : (s.setPc t).flags = s.flags := rfl
@[simp] theorem State.setPc_dmem (t : Byte) : (s.setPc t).dmem = s.dmem := rfl
@[simp] theorem State.setPc_prog (t : Byte) : (s.setPc t).prog = s.prog := rfl
@[simp] theorem State.setPc_status (t : Byte) : (s.setPc t).status = s.status := rfl

@[simp] theorem State.writeData_regs (a x : Byte) : (s.writeData a x).regs = s.regs := rfl
@[simp] theorem State.writeData_pc (a x : Byte) : (s.writeData a x).pc = s.pc := rfl
@[simp] theorem State.writeData_sp (a x : Byte) : (s.writeData a x).sp = s.sp := rfl
@[simp] theorem State.writeData_flags (a x : Byte) : (s.writeData a x).flags = s.flags := rfl
@[simp] theorem State.writeData_dmem (a x : Byte) : (s.writeData a x).dmem = Memory.write Config.unlistedCell a.toNat x s.dmem := rfl
@[simp] theorem State.writeData_prog (a x : Byte) : (s.writeData a x).prog = s.prog := rfl
@[simp] theorem State.writeData_status (a x : Byte) : (s.writeData a x).status = s.status := rfl

@[simp] theorem State.advance_regs : (s.advance).regs = s.regs := rfl
@[simp] theorem State.advance_pc : (s.advance).pc = s.pc + 1 := rfl
@[simp] theorem State.advance_sp : (s.advance).sp = s.sp := rfl
@[simp] theorem State.advance_flags : (s.advance).flags = s.flags := rfl
@[simp] theorem State.advance_dmem : (s.advance).dmem = s.dmem := rfl
@[simp] theorem State.advance_prog : (s.advance).prog = s.prog := rfl
@[simp] theorem State.advance_status : (s.advance).status = s.status := rfl

@[simp] theorem State.push_regs (x : Byte) : (s.push x).regs = s.regs := rfl
@[simp] theorem State.push_pc (x : Byte) : (s.push x).pc = s.pc := rfl
@[simp] theorem State.push_sp (x : Byte) : (s.push x).sp = s.sp - 1 := rfl
@[simp] theorem State.push_flags (x : Byte) : (s.push x).flags = s.flags := rfl
@[simp] theorem State.push_dmem (x : Byte) : (s.push x).dmem = Memory.write Config.unlistedCell s.sp.toNat x s.dmem := rfl
@[simp] theorem State.push_prog (x : Byte) : (s.push x).prog = s.prog := rfl
@[simp] theorem State.push_status (x : Byte) : (s.push x).status = s.status := rfl

@[simp] theorem State.incSp_regs : (s.incSp).regs = s.regs := rfl
@[simp] theorem State.incSp_pc : (s.incSp).pc = s.pc := rfl
@[simp] theorem State.incSp_sp : (s.incSp).sp = s.sp + 1 := rfl
@[simp] theorem State.incSp_flags : (s.incSp).flags = s.flags := rfl
@[simp] theorem State.incSp_dmem : (s.incSp).dmem = s.dmem := rfl
@[simp] theorem State.incSp_prog : (s.incSp).prog = s.prog := rfl
@[simp] theorem State.incSp_status : (s.incSp).status = s.status := rfl

@[simp] theorem State.halt_regs : (s.halt).regs = s.regs := rfl
@[simp] theorem State.halt_pc : (s.halt).pc = s.pc := rfl
@[simp] theorem State.halt_sp : (s.halt).sp = s.sp := rfl
@[simp] theorem State.halt_flags : (s.halt).flags = s.flags := rfl
@[simp] theorem State.halt_dmem : (s.halt).dmem = s.dmem := rfl
@[simp] theorem State.halt_prog : (s.halt).prog = s.prog := rfl
@[simp] theorem State.halt_status : (s.halt).status = .stopped := rfl

@[simp] theorem State.jumpIf_regs (b : Bool) (t : Byte) : (s.jumpIf b t).regs = s.regs := by cases b <;> rfl
@[simp] theorem State.jumpIf_sp (b : Bool) (t : Byte) : (s.jumpIf b t).sp = s.sp := by cases b <;> rfl
@[simp] theorem State.jumpIf_flags (b : Bool) (t : Byte) : (s.jumpIf b t).flags = s.flags := by cases b <;> rfl
@[simp] theorem State.jumpIf_dmem (b : Bool) (t : Byte) : (s.jumpIf b t).dmem = s.dmem := by cases b <;> rfl
@[simp] theorem State.jumpIf_prog (b : Bool) (t : Byte) : (s.jumpIf b t).prog = s.prog := by cases b <;> rfl
@[simp] theorem State.jumpIf_status (b : Bool) (t : Byte) : (s.jumpIf b t).status = s.status := by cases b <;> rfl
@[simp] theorem State.jumpIf_pc (b : Bool) (t : Byte) : (s.jumpIf b t).pc = if b then t else s.pc := by cases b <;> rfl

@[simp] theorem State.readData_writeReg (r : Reg) (x : Byte) (q : Byte) : (s.writeReg r x).readData q = s.readData q := rfl
@[simp] theorem State.readProg_writeReg (r : Reg) (x : Byte) (q : Byte) : (s.writeReg r x).readProg q = s.readProg q := rfl
@[simp] theorem State.readReg_setFlags (f : Flags) (q : Reg) : (s.setFlags f).readReg q = s.readReg q := rfl
@[simp] theorem State.readData_setFlags (f : Flags) (q : Byte) : (s.setFlags f).readData q = s.readData q := rfl
@[simp] theorem State.readProg_setFlags (f : Flags) (q : Byte) : (s.setFlags f).readProg q = s.readProg q := rfl
@[simp] theorem State.readReg_setPc (t : Byte) (q : Reg) : (s.setPc t).readReg q = s.readReg q := rfl
@[simp] theorem State.readData_setPc (t : Byte) (q : Byte) : (s.setPc t).readData q = s.readData q := rfl
@[simp] theorem State.readProg_setPc (t : Byte) (q : Byte) : (s.setPc t).readProg q = s.readProg q := rfl
@[simp] theorem State.readReg_writeData (a x : Byte) (q : Reg) : (s.writeData a x).readReg q = s.readReg q := rfl
@[simp] theorem State.readProg_writeData (a x : Byte) (q : Byte) : (s.writeData a x).readProg q = s.readProg q := rfl
@[simp] theorem State.readReg_advance (q : Reg) : (s.advance).readReg q = s.readReg q := rfl
@[simp] theorem State.readData_advance (q : Byte) : (s.advance).readData q = s.readData q := rfl
@[simp] theorem State.readProg_advance (q : Byte) : (s.advance).readProg q = s.readProg q := rfl
@[simp] theorem State.readReg_push (x : Byte) (q : Reg) : (s.push x).readReg q = s.readReg q := rfl
@[simp] theorem State.readProg_push (x : Byte) (q : Byte) : (s.push x).readProg q = s.readProg q := rfl
@[simp] theorem State.readReg_incSp (q : Reg) : (s.incSp).readReg q = s.readReg q := rfl
@[simp] theorem State.readData_incSp (q : Byte) : (s.incSp).readData q = s.readData q := rfl
@[simp] theorem State.readProg_incSp (q : Byte) : (s.incSp).readProg q = s.readProg q := rfl
@[simp] theorem State.readReg_halt (q : Reg) : (s.halt).readReg q = s.readReg q := rfl
@[simp] theorem State.readData_halt (q : Byte) : (s.halt).readData q = s.readData q := rfl
@[simp] theorem State.readProg_halt (q : Byte) : (s.halt).readProg q = s.readProg q := rfl

@[simp] theorem State.readReg_jumpIf (b : Bool) (t : Byte) (q : Reg) : (s.jumpIf b t).readReg q = s.readReg q := by cases b <;> rfl
@[simp] theorem State.readData_jumpIf (b : Bool) (t : Byte) (q : Byte) : (s.jumpIf b t).readData q = s.readData q := by cases b <;> rfl
@[simp] theorem State.readProg_jumpIf (b : Bool) (t : Byte) (q : Byte) : (s.jumpIf b t).readProg q = s.readProg q := by cases b <;> rfl

theorem State.jumpIf_true (t : Byte) : s.jumpIf true t = s.setPc t := rfl
theorem State.jumpIf_false (t : Byte) : s.jumpIf false t = s := rfl

/-- Reading a register that was just written, and any other register. -/
theorem Regs.get_set (rs : Regs) (r q : Reg) (x : Byte) : (rs.set r x).get q = if q = r then x else rs.get q := by
  cases r <;> cases q <;> rfl

@[simp] theorem Regs.get_set_same (rs : Regs) (r : Reg) (x : Byte) : (rs.set r x).get r = x := by cases r <;> rfl

theorem Regs.get_set_other (rs : Regs) {r q : Reg} (h : q ≠ r) (x : Byte) : (rs.set r x).get q = rs.get q := by
  simp [Regs.get_set, h]

/-- Register files that read the same are the same. -/
theorem Regs.ext_get {a b : Regs} (h : ∀ r, a.get r = b.get r) : a = b := by
  cases a; cases b
  simpa [Regs.get] using And.intro (h .r0) <| And.intro (h .r1) <| And.intro (h .r2) <| And.intro (h .r3) <|
    And.intro (h .r4) <| And.intro (h .r5) <| And.intro (h .r6) (h .r7)

/-- Writing the value a register holds changes nothing. -/
@[simp] theorem Regs.set_get (rs : Regs) (r : Reg) : rs.set r (rs.get r) = rs := by cases r <;> rfl

/-- The later of two writes to one register stays. -/
@[simp] theorem Regs.set_set (rs : Regs) (r : Reg) (x y : Byte) : (rs.set r x).set r y = rs.set r y := by cases r <;> rfl

theorem State.readReg_writeReg (r q : Reg) (x : Byte) : (s.writeReg r x).readReg q = if q = r then x else s.readReg q :=
  Regs.get_set s.regs r q x

@[simp] theorem State.readReg_writeReg_same (r : Reg) (x : Byte) : (s.writeReg r x).readReg r = x := Regs.get_set_same s.regs r x

theorem State.readReg_writeReg_other {r q : Reg} (h : q ≠ r) (x : Byte) : (s.writeReg r x).readReg q = s.readReg q :=
  Regs.get_set_other s.regs h x

end Sys2Proof.Machine
end

