-- ==== Sys2Proof/Laws/Memory.lean ====
section
/-! SUPPORT. The memory laws: what a read sees after a write, and that every memory operation keeps the canonical form. -/

namespace Sys2Proof.Machine

variable {w : Nat} {fill : BitVec w} {size : Nat}

theorem Memory.read_erase (a b : Nat) (m : Memory w) :
    Memory.read fill b (Memory.erase a m) = if b = a then fill else Memory.read fill b m := by
  induction m with
  | nil => simp [Memory.erase, Memory.read]
  | cons e m ih =>
    obtain ⟨c, x⟩ := e
    by_cases hca : c = a <;> by_cases hba : b = a <;> by_cases hcb : c = b <;> simp_all [Memory.erase, Memory.read]

theorem Memory.read_insert_same (a : Nat) (x : BitVec w) (m : Memory w) (h : Memory.erase a m = m) :
    Memory.read fill a (Memory.insert a x m) = x := by
  induction m with
  | nil => simp [Memory.insert, Memory.read]
  | cons e m ih =>
    obtain ⟨c, y⟩ := e
    have hc : c ≠ a := by
      intro hca
      have hlen : ∀ l : Memory w, (Memory.erase a l).length ≤ l.length := by
        intro l
        induction l with
        | nil => simp [Memory.erase]
        | cons e l ih => simp only [Memory.erase]; split <;> simp <;> omega
      have := congrArg List.length h
      have := hlen m
      simp [Memory.erase, hca] at *
      omega
    have hm : Memory.erase a m = m := by simpa [Memory.erase, hc] using h
    by_cases hac : a < c <;> simp [Memory.insert, Memory.read, hac, hc, ih hm]

theorem Memory.read_insert_other {a b : Nat} (hb : b ≠ a) (x : BitVec w) (m : Memory w) :
    Memory.read fill b (Memory.insert a x m) = Memory.read fill b m := by
  induction m with
  | nil => simp [Memory.insert, Memory.read, Ne.symm hb]
  | cons e m ih =>
    obtain ⟨c, y⟩ := e
    by_cases hac : a < c <;> simp [Memory.insert, Memory.read, hac, Ne.symm hb, ih]

theorem Memory.erase_erase (a : Nat) (m : Memory w) : Memory.erase a (Memory.erase a m) = Memory.erase a m := by
  induction m with
  | nil => rfl
  | cons e m ih =>
    obtain ⟨c, y⟩ := e
    by_cases hca : c = a <;> simp [Memory.erase, hca, ih]

/-- Everything a write does to what is read, for every list whatever its form. -/
theorem Memory.read_write (a b : Nat) (x : BitVec w) (m : Memory w) :
    Memory.read fill b (Memory.write fill a x m) = if b = a then x else Memory.read fill b m := by
  by_cases hx : x = fill
  · simp only [Memory.write, hx, if_true, Memory.read_erase]
  · by_cases hb : b = a
    · subst hb
      simp [Memory.write, hx, Memory.read_insert_same _ _ _ (Memory.erase_erase b m)]
    · simp [Memory.write, hx, Memory.read_insert_other hb, Memory.read_erase, hb]

/-- The canonical form from a higher address on is the canonical form from a lower one on. -/
theorem Memory.wfFrom_mono {lo lo' : Nat} (h : lo' ≤ lo) {m : Memory w} (hm : Memory.wfFrom fill size lo m = true) :
    Memory.wfFrom fill size lo' m = true := by
  cases m with
  | nil => rfl
  | cons e m =>
    obtain ⟨c, x⟩ := e
    simp only [Memory.wfFrom, Bool.and_eq_true, decide_eq_true_eq] at hm ⊢
    exact ⟨⟨⟨h.trans hm.1.1.1, hm.1.1.2⟩, hm.1.2⟩, hm.2⟩

theorem Memory.wfFrom_erase (a : Nat) {lo : Nat} {m : Memory w} (hm : Memory.wfFrom fill size lo m = true) :
    Memory.wfFrom fill size lo (Memory.erase a m) = true := by
  induction m generalizing lo with
  | nil => rfl
  | cons e m ih =>
    obtain ⟨c, x⟩ := e
    simp only [Memory.wfFrom, Bool.and_eq_true, decide_eq_true_eq] at hm
    by_cases hca : c = a
    · simp only [Memory.erase, hca, if_true]
      exact ih (Memory.wfFrom_mono (by omega) hm.2)
    · simp only [Memory.erase, hca, if_false, Memory.wfFrom, Bool.and_eq_true, decide_eq_true_eq]
      exact ⟨hm.1, ih hm.2⟩

theorem Memory.wfFrom_insert {a : Nat} {x : BitVec w} (ha : a < size) (hx : x ≠ fill) {lo : Nat} (hlo : lo ≤ a) {m : Memory w}
    (hm : Memory.wfFrom fill size lo m = true) (hna : Memory.erase a m = m) : Memory.wfFrom fill size lo (Memory.insert a x m) = true := by
  induction m generalizing lo with
  | nil => simp [Memory.insert, Memory.wfFrom, hlo, ha, hx]
  | cons e m ih =>
    obtain ⟨c, y⟩ := e
    have hca : c ≠ a := by
      intro hca
      have hwf := Memory.wfFrom_erase (fill := fill) (size := size) a hm
      rw [Memory.erase, if_pos hca] at hna
      have hlen : ∀ l : Memory w, (Memory.erase a l).length ≤ l.length := by
        intro l
        induction l with
        | nil => simp [Memory.erase]
        | cons e l ih => simp only [Memory.erase]; split <;> simp <;> omega
      have h1 := congrArg List.length hna
      have h2 := hlen m
      simp at h1
      omega
    have hm' : Memory.erase a m = m := by simpa [Memory.erase, hca] using hna
    simp only [Memory.wfFrom, Bool.and_eq_true, decide_eq_true_eq] at hm
    by_cases hac : a < c
    · simp only [Memory.insert, hac, if_true, Memory.wfFrom, Bool.and_eq_true, decide_eq_true_eq]
      exact ⟨⟨⟨hlo, ha⟩, by simpa using hx⟩, ⟨⟨⟨hac, hm.1.1.2⟩, hm.1.2⟩, hm.2⟩⟩
    · simp only [Memory.insert, hac, if_false, Memory.wfFrom, Bool.and_eq_true, decide_eq_true_eq]
      exact ⟨hm.1, ih (by omega) hm.2 hm'⟩

/-- A write inside the address space keeps the canonical form. -/
theorem Memory.wf_write {a : Nat} (ha : a < size) (x : BitVec w) {m : Memory w} (hm : Memory.wf fill size m = true) :
    Memory.wf fill size (Memory.write fill a x m) = true := by
  unfold Memory.write
  split
  · exact Memory.wfFrom_erase a hm
  · rename_i hx
    exact Memory.wfFrom_insert ha hx (Nat.zero_le a) (Memory.wfFrom_erase a hm) (Memory.erase_erase a m)

/-- An address below the first possible one is unlisted. -/
theorem Memory.read_below {lo a : Nat} (h : a < lo) {m : Memory w} (hm : Memory.wfFrom fill size lo m = true) : Memory.read fill a m = fill := by
  induction m generalizing lo with
  | nil => rfl
  | cons e m ih =>
    obtain ⟨c, x⟩ := e
    simp only [Memory.wfFrom, Bool.and_eq_true, decide_eq_true_eq] at hm
    rw [Memory.read, if_neg (by omega), ih (lo := c + 1) (by omega) hm.2]

/-- Every data write of a state keeps the canonical form of its data memory. -/
theorem State.writeData_wf (s : State) (a x : Byte) (h : Memory.wf Config.unlistedCell Config.dmemCells s.dmem = true) :
    Memory.wf Config.unlistedCell Config.dmemCells (s.writeData a x).dmem = true :=
  Memory.wf_write a.isLt x h

/-- A loaded program is in canonical form when it fits. -/
theorem Memory.ofWords_wf (a : Nat) (ws : List InstrWord) (h : a + ws.length ≤ Config.pmemWords) :
    Memory.wf Config.unlistedWord Config.pmemWords (Memory.ofWords a ws) = true := by
  induction ws generalizing a with
  | nil => rfl
  | cons x ws ih =>
    simp only [List.length_cons] at h
    exact Memory.wf_write (by omega) x (ih (a + 1) (by omega))

theorem State.readData_writeData (s : State) (a x b : Byte) : (s.writeData a x).readData b = if b = a then x else s.readData b := by
  simp only [State.readData, State.writeData, Memory.read_write, BitVec.toNat_inj]

@[simp] theorem State.readData_writeData_same (s : State) (a x : Byte) : (s.writeData a x).readData a = x := by
  simp [State.readData_writeData]

theorem State.readData_writeData_other (s : State) {a b : Byte} (h : b ≠ a) (x : Byte) : (s.writeData a x).readData b = s.readData b := by
  simp [State.readData_writeData, h]

theorem State.readData_push (s : State) (x b : Byte) : (s.push x).readData b = if b = s.sp then x else s.readData b :=
  State.readData_writeData s s.sp x b

/-- The word placed by `withFetchWord` is the word the next step fetches. -/
theorem Memory.read_write_same (a : Nat) (x : BitVec w) (m : Memory w) : Memory.read fill a (Memory.write fill a x m) = x := by
  simp [Memory.read_write]

end Sys2Proof.Machine
end

