-- ==== Sys2Proof/Laws/Step.lean ====
section
/-! SUPPORT. What each instruction answers, in terms of the named operations, and what a step can answer: the lemmas that proofs cite instead of
unfolding `exec` and `step`. -/

namespace Sys2Proof.Machine

variable (s : State)

theorem exec_st (b r : Reg) : exec (.st b r) s = .next (s.writeData (s.readReg b) (s.readReg r)) := rfl
theorem exec_ld (d b : Reg) : exec (.ld d b) s = .next (s.writeReg d (s.readData (s.readReg b))) := rfl
theorem exec_sts (k : Byte) (r : Reg) : exec (.sts k r) s = .next (s.writeData k (s.readReg r)) := rfl
theorem exec_lds (d : Reg) (k : Byte) : exec (.lds d k) s = .next (s.writeReg d (s.readData k)) := rfl
theorem exec_call (k : Byte) : exec (.call k) s = .next ((s.push s.pc).setPc k) := rfl
theorem exec_ret : exec .ret s = .next (s.incSp.setPc s.incSp.atSp) := rfl
theorem exec_breq (k : Byte) : exec (.breq k) s = .next (s.jumpIf s.flags.z k) := rfl
theorem exec_brcs (k : Byte) : exec (.brcs k) s = .next (s.jumpIf s.flags.c k) := rfl
theorem exec_brvs (k : Byte) : exec (.brvs k) s = .next (s.jumpIf s.flags.v k) := rfl
theorem exec_brlt (k : Byte) : exec (.brlt k) s = .next (s.jumpIf s.flags.less k) := rfl
theorem exec_jmp (k : Byte) : exec (.jmp k) s = .next (s.setPc k) := rfl
theorem exec_add (d r : Reg) : exec (.add d r) s = .next ((s.writeReg d (addResult (s.readReg d) (s.readReg r))).setFlags (addFlags (s.readReg d) (s.readReg r))) := rfl
theorem exec_sub (d r : Reg) : exec (.sub d r) s = .next ((s.writeReg d (subResult (s.readReg d) (s.readReg r))).setFlags (subFlags (s.readReg d) (s.readReg r))) := rfl
theorem exec_cp (d r : Reg) : exec (.cp d r) s = .next (s.setFlags (subFlags (s.readReg d) (s.readReg r))) := rfl
theorem exec_addi (d : Reg) (k : Byte) : exec (.addi d k) s = .next ((s.writeReg d (addResult (s.readReg d) k)).setFlags (addFlags (s.readReg d) k)) := rfl
theorem exec_subi (d : Reg) (k : Byte) : exec (.subi d k) s = .next ((s.writeReg d (subResult (s.readReg d) k)).setFlags (subFlags (s.readReg d) k)) := rfl
theorem exec_cpi (d : Reg) (k : Byte) : exec (.cpi d k) s = .next (s.setFlags (subFlags (s.readReg d) k)) := rfl
theorem exec_mov (d r : Reg) : exec (.mov d r) s = .next (s.writeReg d (s.readReg r)) := rfl
theorem exec_ldi (d : Reg) (k : Byte) : exec (.ldi d k) s = .next (s.writeReg d k) := rfl
theorem exec_clc : exec .clc s = .next (s.setFlags (clearCarry s.flags)) := rfl
theorem exec_sec : exec .sec s = .next (s.setFlags (setCarry s.flags)) := rfl
theorem exec_ror (d : Reg) : exec (.ror d) s = .next ((s.writeReg d (shrResult (s.readReg d) s.flags.c)).setFlags (shrFlags Config.rorVRule (s.readReg d) s.flags.c)) := rfl
theorem exec_rol (d : Reg) : exec (.rol d) s = .next ((s.writeReg d (shlResult (s.readReg d) s.flags.c)).setFlags (shlFlags (s.readReg d) s.flags.c)) := rfl
theorem exec_stop : exec .stop s = .next s.halt := rfl

/-- What the shared stores, loads, arithmetic and copies answer: always a next state. -/
theorem storeTo_next (a : Address) (r : Reg) : storeTo a r s = .next (s.writeData (a.effective s) (s.readReg r)) := rfl
theorem loadFrom_next (d : Reg) (a : Address) : loadFrom d a s = .next (s.writeReg d (s.readData (a.effective s))) := rfl
theorem addInto_next (d : Reg) (b : Source) :
    addInto d b s = .next ((s.writeReg d (addResult (s.readReg d) (b.value s))).setFlags (addFlags (s.readReg d) (b.value s))) := rfl
theorem subInto_next (d : Reg) (b : Source) :
    subInto d b s = .next ((s.writeReg d (subResult (s.readReg d) (b.value s))).setFlags (subFlags (s.readReg d) (b.value s))) := rfl
theorem compareWith_next (d : Reg) (b : Source) : compareWith d b s = .next (s.setFlags (subFlags (s.readReg d) (b.value s))) := rfl
theorem copyInto_next (d : Reg) (b : Source) : copyInto d b s = .next (s.writeReg d (b.value s)) := rfl

/-- The shared refusal never answers a next state. -/
theorem refuseUndocumented_ne_next (ir : InstrWord) (t : State) : refuseUndocumented ir s ≠ .next t := by
  intro h
  cases h

/-- An instruction of an undocumented row is refused with its word and the address it was fetched from. -/
theorem exec_undocumented {i : Instr} (h : i.documented = false) : exec i s = .refused (.undocumented (encode i) (s.pc - 1)) := by
  cases i <;> first | rfl | simp [Instr.documented] at h

/-- An instruction of a documented row completes. -/
theorem exec_documented {i : Instr} (h : i.documented = true) : ∃ t, exec i s = .next t := by
  cases i <;> first | exact ⟨_, rfl⟩ | simp [Instr.documented] at h

variable {s}

/-- An instruction that completes is documented. -/
theorem documented_of_exec_next {i : Instr} {t : State} (h : exec i s = .next t) : i.documented = true := by
  by_contra hd
  rw [exec_undocumented s (by simpa using hd)] at h
  cases h

theorem step_stopped (h : s.status = .stopped) : step s = .fault .stopped := by simp [step, stepWith, h]

theorem step_running (h : s.status = .running) : step s = exec (decode s.fetch) s.advance := by
  simp [step, stepWith, h, Config.strictUnusedBits]

/-- Everything a step that answers a next state has done. -/
theorem step_next {t : State} (h : step s = .next t) :
    s.status = .running ∧ (decode s.fetch).documented = true ∧ exec (decode s.fetch) s.advance = .next t := by
  cases hs : s.status with
  | stopped => rw [step_stopped hs] at h; cases h
  | running =>
    rw [step_running hs] at h
    exact ⟨rfl, documented_of_exec_next h, h⟩

/-- A run of `k + 1` steps that answers a next state is a step and a run of `k`. -/
theorem run_next {k : Nat} {t : State} (h : Sys2Proof.core.run (k + 1) s = .next t) :
    ∃ u, step s = .next u ∧ Sys2Proof.core.run k u = .next t := by
  simp only [Host.Core.run] at h
  split at h
  · rename_i u hu
    exact ⟨u, hu, h⟩
  · cases h
  · cases h

end Sys2Proof.Machine
end

