-- ==== Sys2Proof/Laws/Micro.lean ====
section
/-! SUPPORT. The pieces of a clock cycle of the micro-architecture layer. -/

namespace Sys2Proof.Machine

@[simp] theorem loadWhen_true (x : Option Byte) (old : Byte) : loadWhen true x old = x := rfl

@[simp] theorem loadWhen_false (x : Option Byte) (old : Byte) : loadWhen false x old = some old := rfl

@[simp] theorem Micro.run_nil (u : Micro) : Micro.run [] u = some u := rfl

theorem Micro.run_cons (m : MicroInstr) (ms : List MicroInstr) (u : Micro) :
    Micro.run (m :: ms) u = (Micro.cycle m u).bind (Micro.run ms) := rfl

/-- No cycle changes IR (70_reset_and_hazards.md R144 names no signal that writes it). -/
theorem Micro.cycle_ir {m : MicroInstr} {u v : Micro} (h : Micro.cycle m u = some v) : v.ir = u.ir := by
  simp only [Micro.cycle, bind, Option.bind_eq_some_iff] at h
  obtain ⟨_, _, _, _, _, _, _, _, h⟩ := h
  cases h
  rfl

theorem Micro.fetchPhase_ir (u : Micro) : u.fetchPhase.ir = u.arch.fetch := rfl

theorem Micro.fetchPhase_arch (u : Micro) : u.fetchPhase.arch = u.arch.advance := rfl

end Sys2Proof.Machine
end

