-- ==== Sys2Proof/Laws/PerInstr.lean ====
section
/-! SUPPORT. The family TableRow, one lemma per constructor of `Instr`: the encoding of an instruction is a word of its own row of the opcode table, with
the row's unused bits 0 (30_encoding.md R55, R56, R66). -/

namespace Sys2Proof.Laws.TableRow

/-- The encoding of a well-formed instruction meets the pattern of its row under the strict mask, so under the plain mask too. -/
def Statement (i : Instr) : Prop :=
  i.wellFormed = true → ∃ row ∈ opcodeTable, row.mnemonic = i.mnemonic ∧ encode i &&& row.strictMask = row.pattern

theorem rowA (op : BitVec 5) (rd rs : Reg) : formatA op rd rs &&& 0xF8F8#16 = formatRest op 0 := by
  apply BitVec.eq_of_getLsbD_eq
  intro i hi
  rw [BitVec.getLsbD_and, getLsbD_formatA, getLsbD_formatRest]
  interval_cases i <;> simp

theorem rowRest (op : BitVec 5) (x : BitVec 11) : formatRest op x &&& 0xF800#16 = formatRest op 0 := formatRest_and_opMask op x

theorem rowB (op : BitVec 5) (rd : Reg) (k : Byte) : formatB op rd k &&& 0xF800#16 = formatRest op 0 := by
  rw [and_opMask, fieldOp_formatB]

theorem rowC (op : BitVec 5) (cc : BitVec 3) (k : Byte) : formatC op cc k &&& 0xFF00#16 = formatC op cc 0 := formatC_and_ccMask op cc k

theorem st (d r : Reg) : Statement (.st d r) := fun _ => ⟨⟨"ST", 0x0000, 0xF800, 0xF8F8⟩, by decide, rfl, rowA _ _ _⟩
theorem ld (d r : Reg) : Statement (.ld d r) := fun _ => ⟨⟨"LD", 0x0800, 0xF800, 0xF8F8⟩, by decide, rfl, rowA _ _ _⟩
theorem add (d r : Reg) : Statement (.add d r) := fun _ => ⟨⟨"ADD", 0x4000, 0xF800, 0xF8F8⟩, by decide, rfl, rowA _ _ _⟩
theorem sub (d r : Reg) : Statement (.sub d r) := fun _ => ⟨⟨"SUB", 0x5000, 0xF800, 0xF8F8⟩, by decide, rfl, rowA _ _ _⟩
theorem cp (d r : Reg) : Statement (.cp d r) := fun _ => ⟨⟨"CP", 0x5800, 0xF800, 0xF8F8⟩, by decide, rfl, rowA _ _ _⟩
theorem mov (d r : Reg) : Statement (.mov d r) := fun _ => ⟨⟨"MOV", 0x7800, 0xF800, 0xF8F8⟩, by decide, rfl, rowA _ _ _⟩
theorem sts (k : Byte) (r : Reg) : Statement (.sts k r) := fun _ => ⟨⟨"STS", 0x1000, 0xF800, 0xF800⟩, by decide, rfl, rowB _ _ _⟩
theorem lds (d : Reg) (k : Byte) : Statement (.lds d k) := fun _ => ⟨⟨"LDS", 0x1800, 0xF800, 0xF800⟩, by decide, rfl, rowB _ _ _⟩
theorem addi (d : Reg) (k : Byte) : Statement (.addi d k) := fun _ => ⟨⟨"ADDI", 0xC000, 0xF800, 0xF800⟩, by decide, rfl, rowB _ _ _⟩
theorem subi (d : Reg) (k : Byte) : Statement (.subi d k) := fun _ => ⟨⟨"SUBI", 0xD000, 0xF800, 0xF800⟩, by decide, rfl, rowB _ _ _⟩
theorem cpi (d : Reg) (k : Byte) : Statement (.cpi d k) := fun _ => ⟨⟨"CPI", 0xD800, 0xF800, 0xF800⟩, by decide, rfl, rowB _ _ _⟩
theorem ldi (d : Reg) (k : Byte) : Statement (.ldi d k) := fun _ => ⟨⟨"LDI", 0xF800, 0xF800, 0xF800⟩, by decide, rfl, rowB _ _ _⟩
theorem call (k : Byte) : Statement (.call k) := fun _ => ⟨⟨"CALL", 0x2000, 0xF800, 0xFF00⟩, by decide, rfl, rowC _ _ _⟩
theorem jmp (k : Byte) : Statement (.jmp k) := fun _ => ⟨⟨"JMP", 0x3800, 0xF800, 0xFF00⟩, by decide, rfl, rowC _ _ _⟩
theorem breq (k : Byte) : Statement (.breq k) := fun _ => ⟨⟨"BREQ", 0x3000, 0xFF00, 0xFF00⟩, by decide, rfl, rowC _ _ _⟩
theorem brcs (k : Byte) : Statement (.brcs k) := fun _ => ⟨⟨"BRCS", 0x3100, 0xFF00, 0xFF00⟩, by decide, rfl, rowC _ _ _⟩
theorem brvs (k : Byte) : Statement (.brvs k) := fun _ => ⟨⟨"BRVS", 0x3200, 0xFF00, 0xFF00⟩, by decide, rfl, rowC _ _ _⟩
theorem brlt (k : Byte) : Statement (.brlt k) := fun _ => ⟨⟨"BRLT", 0x3300, 0xFF00, 0xFF00⟩, by decide, rfl, rowC _ _ _⟩
theorem ret : Statement .ret := fun _ => ⟨⟨"RET", 0x2800, 0xF800, 0xFFFF⟩, by decide, rfl, by decide⟩
theorem clc : Statement .clc := fun _ => ⟨⟨"CLC", 0x9000, 0xF800, 0xFFFF⟩, by decide, rfl, by decide⟩
theorem sec : Statement .sec := fun _ => ⟨⟨"SEC", 0x9800, 0xF800, 0xFFFF⟩, by decide, rfl, by decide⟩
theorem stop : Statement .stop := fun _ => ⟨⟨"STOP", 0xB800, 0xF800, 0xFFFF⟩, by decide, rfl, by decide⟩
theorem ror (d : Reg) : Statement (.ror d) := fun _ => ⟨⟨"ROR", 0xA000, 0xF800, 0xF8FF⟩, by decide, rfl, by cases d <;> decide⟩
theorem rol (d : Reg) : Statement (.rol d) := fun _ => ⟨⟨"ROL", 0xA800, 0xF800, 0xF8FF⟩, by decide, rfl, by cases d <;> decide⟩
theorem undoc01001 (x : BitVec 11) : Statement (.undoc01001 x) := fun _ => ⟨⟨"undocumented_01001", 0x4800, 0xF800, 0xF800⟩, by decide, rfl, rowRest _ _⟩
theorem undoc01100 (x : BitVec 11) : Statement (.undoc01100 x) := fun _ => ⟨⟨"undocumented_01100", 0x6000, 0xF800, 0xF800⟩, by decide, rfl, rowRest _ _⟩
theorem undoc01101 (x : BitVec 11) : Statement (.undoc01101 x) := fun _ => ⟨⟨"undocumented_01101", 0x6800, 0xF800, 0xF800⟩, by decide, rfl, rowRest _ _⟩
theorem undoc01110 (x : BitVec 11) : Statement (.undoc01110 x) := fun _ => ⟨⟨"undocumented_01110", 0x7000, 0xF800, 0xF800⟩, by decide, rfl, rowRest _ _⟩
theorem undoc10000 (x : BitVec 11) : Statement (.undoc10000 x) := fun _ => ⟨⟨"undocumented_10000", 0x8000, 0xF800, 0xF800⟩, by decide, rfl, rowRest _ _⟩
theorem undoc10001 (x : BitVec 11) : Statement (.undoc10001 x) := fun _ => ⟨⟨"undocumented_10001", 0x8800, 0xF800, 0xF800⟩, by decide, rfl, rowRest _ _⟩
theorem undoc10110 (x : BitVec 11) : Statement (.undoc10110 x) := fun _ => ⟨⟨"undocumented_10110", 0xB000, 0xF800, 0xF800⟩, by decide, rfl, rowRest _ _⟩
theorem undoc11001 (x : BitVec 11) : Statement (.undoc11001 x) := fun _ => ⟨⟨"undocumented_11001", 0xC800, 0xF800, 0xF800⟩, by decide, rfl, rowRest _ _⟩
theorem undoc11100 (x : BitVec 11) : Statement (.undoc11100 x) := fun _ => ⟨⟨"undocumented_11100", 0xE000, 0xF800, 0xF800⟩, by decide, rfl, rowRest _ _⟩
theorem undoc11101 (x : BitVec 11) : Statement (.undoc11101 x) := fun _ => ⟨⟨"undocumented_11101", 0xE800, 0xF800, 0xF800⟩, by decide, rfl, rowRest _ _⟩
theorem undoc11110 (x : BitVec 11) : Statement (.undoc11110 x) := fun _ => ⟨⟨"undocumented_11110", 0xF000, 0xF800, 0xF800⟩, by decide, rfl, rowRest _ _⟩

theorem undocBr (cc : BitVec 3) (k : Byte) : Statement (.undocBr cc k) := by
  intro h
  refine ⟨⟨"undocumented_BRxx_condition_1xx", 0x3400, 0xFC00, 0xFC00⟩, by decide, rfl, ?_⟩
  have h2 : cc.getLsbD 2 = true := h
  apply BitVec.eq_of_getLsbD_eq
  intro i hi
  rw [BitVec.getLsbD_and, encode, getLsbD_formatC]
  interval_cases i <;> simp at h2 ⊢
  exact h2

end Sys2Proof.Laws.TableRow
end

