-- ==== Sys2Proof/Tests/Slice0.lean ====
section
/-! SUPPORT. Tests whose expected results stand in spec/ (the vectors of 95_test_vectors.md, the examples of 30_encoding.md R66, the corner cases of
40_alu_function.md R84), and for every statement with hypotheses a witness that meets them. -/

namespace Sys2Proof.Tests

open Sys2Proof Sys2Proof.Machine

/-- A small state as the single-step vectors write it: two registers, flags V N Z C, pc, sp, data memory; every other register is 0. -/
def st (r0 r1 : Byte) (f : Flags) (pc sp : Byte) (dmem : List Host.Cell) : State :=
  { State.reset with regs := { State.reset.regs with r0 := r0, r1 := r1 }, flags := f, pc := pc, sp := sp, dmem := dmem }

/-- Flags in the order V N Z C. -/
def vnzc (v n z c : Nat) : Flags := ⟨v == 1, n == 1, z == 1, c == 1⟩

/-- One step of the word at pc, and a check of the state it leaves. -/
def stepsTo (w : Nat) (s : State) (check : State → Bool) : Bool :=
  match step (s.withFetchWord 16 w) with
  | .next t => check t
  | .fault _ => false
  | .refused _ => false

-- WellFormed

/-- The undocumented branch row holds no documented condition (30_encoding.md R57). -/
theorem test_illformed_branch : (Instr.undocBr 0b011 0x07).wellFormed = false := by decide

theorem test_wellformed_branch : (Instr.undocBr 0b100 0x07).wellFormed = true := by decide

-- Decoding, the words of 30_encoding.md R66 and 95_test_vectors.md section 4.1, one for each constructor

/-- 0x0701 is 00000 111 00000001; 0x0B05, 0x127B, 0x1C10. -/
theorem test_decode_memory :
    decode 0b0000011100000001 = .st .r1 .r7 ∧ decode 0b0000101100000101 = .ld .r3 .r5 ∧ decode 0b0001001001111011 = .sts 0x7B .r2 ∧
      decode 0b0001110000010000 = .lds .r4 0x10 := by decide

/-- 0x2020, 0x2800, 0x3007, 0x3107, 0x3207, 0x3307, 0x3407, 0x3803. -/
theorem test_decode_transfer :
    decode 0b0010000000100000 = .call 0x20 ∧ decode 0b0010100000000000 = .ret ∧ decode 0b0011000000000111 = .breq 0x07 ∧
      decode 0b0011000100000111 = .brcs 0x07 ∧ decode 0b0011001000000111 = .brvs 0x07 ∧ decode 0b0011001100000111 = .brlt 0x07 ∧
      decode 0b0011010000000111 = .undocBr 0b100 0x07 ∧ decode 0b0011100000000011 = .jmp 0x03 := by decide

/-- 0x4001, 0x5307, 0x5902, 0xC101, 0xD201, 0xDA00. -/
theorem test_decode_arithmetic :
    decode 0b0100000000000001 = .add .r0 .r1 ∧ decode 0b0101001100000111 = .sub .r3 .r7 ∧ decode 0b0101100100000010 = .cp .r1 .r2 ∧
      decode 0b1100000100000001 = .addi .r1 0x01 ∧ decode 0b1101001000000001 = .subi .r2 0x01 ∧ decode 0b1101101000000000 = .cpi .r2 0x00 := by
  decide

/-- 0x7801, 0xF864, 0x9000, 0x9800, 0xA700, 0xAB00, 0xB800. -/
theorem test_decode_rest :
    decode 0b0111100000000001 = .mov .r0 .r1 ∧ decode 0b1111100001100100 = .ldi .r0 0x64 ∧ decode 0b1001000000000000 = .clc ∧
      decode 0b1001100000000000 = .sec ∧ decode 0b1010011100000000 = .ror .r7 ∧ decode 0b1010101100000000 = .rol .r3 ∧
      decode 0b1011100000000000 = .stop := by decide

/-- The 11 codes of 46_special.md R121, each with an operand bit set. -/
theorem test_decode_undocumented :
    decode 0x4801 = .undoc01001 1 ∧ decode 0x6001 = .undoc01100 1 ∧ decode 0x6801 = .undoc01101 1 ∧ decode 0x7001 = .undoc01110 1 ∧
      decode 0x8001 = .undoc10000 1 ∧ decode 0x8801 = .undoc10001 1 ∧ decode 0xB001 = .undoc10110 1 ∧ decode 0xC801 = .undoc11001 1 ∧
      decode 0xE001 = .undoc11100 1 ∧ decode 0xE801 = .undoc11101 1 ∧ decode 0xF7FF = .undoc11110 0x7FF := by decide

/-- Unused bits: 95_test_vectors.md section 4.1, words 0x00F9, 0x2720, 0x2FFF, 0xA7FF. -/
theorem test_decode_unused_bits :
    decode 0x00F9 = .st .r1 .r0 ∧ decode 0x2720 = .call 0x20 ∧ decode 0x2FFF = .ret ∧ decode 0xA7FF = .ror .r7 := by decide

/-- The same words under the strict option, and two canonical ones. -/
theorem test_decode_strict :
    decodeWith true 0x00F9 = none ∧ decodeWith true 0x2720 = none ∧ decodeWith true 0x2FFF = none ∧ decodeWith true 0xA7FF = none ∧
      decodeWith true 0x0001 = some (.st .r1 .r0) ∧ decodeWith true 0xFFFF = some (.ldi .r7 0xFF) := by decide

/-- 30_encoding.md R66, examples. -/
theorem test_encode :
    encode (.st .r1 .r0) = 0x0001 ∧ encode (.lds .r4 0x10) = 0x1C10 ∧ encode (.brlt 0x07) = 0x3307 ∧ encode (.cp .r1 .r2) = 0x5902 ∧
      encode (.rol .r3) = 0xAB00 ∧ encode (.ldi .r1 0x7B) = 0xF97B := by decide

theorem test_decodeTableWord : decodeTableWord 16 0x5307 = some (.sub .r3 .r7) ∧ decodeTableWord 17 0x5307 = none := by decide

-- Single steps, 95_test_vectors.md section 2

/-- MA1. -/
theorem test_st : stepsTo 0x0001 (st 0x64 0x7B (vnzc 0 0 0 0) 0x10 0xFF []) (fun t => t.dmem == [(0x7B, 0x64)] && t.pc == 0x11) = true := by decide

/-- MA5: the lowest address, storing 0. -/
theorem test_st_zero :
    stepsTo 0x0001 (st 0 0 (vnzc 1 1 1 1) 0x10 0xFF [(0x00, 0x55)]) (fun t => t.dmem == [] && t.flags == vnzc 1 1 1 1) = true := by decide

/-- MA8: loading 0 does not set Z. -/
theorem test_ld :
    stepsTo 0x0801 (st 0x11 0x30 (vnzc 0 1 0 0) 0x10 0xFF []) (fun t => t.regs.r0 == 0x00 && t.flags == vnzc 0 1 0 0) = true := by decide

/-- As MA7, with R1: the address is the old value. -/
theorem test_ld_same_register :
    stepsTo 0x0901 (st 0 0x20 (vnzc 0 0 0 0) 0x10 0xFF [(0x20, 0x99)]) (fun t => t.regs.r1 == 0x99 && t.pc == 0x11) = true := by decide

/-- As MA10, with R1: the cell that SP points at. -/
theorem test_sts : stepsTo 0x11FF (st 0 0x01 (vnzc 0 0 0 0) 0x10 0xFF []) (fun t => t.dmem == [(0xFF, 0x01)] && t.sp == 0xFF) = true := by decide

/-- MA11. -/
theorem test_lds :
    stepsTo 0x1C10 (st 0 0 (vnzc 0 0 0 0) 0x10 0xFF [(0x10, 0xC3)]) (fun t => t.regs.r4 == 0xC3 && t.pc == 0x11) = true := by decide

/-- CT3: pc and sp wrap. -/
theorem test_call_wraps :
    stepsTo 0x2001 (st 0 0 (vnzc 0 0 0 0) 0xFF 0x00 [(0x00, 0x55)]) (fun t => t.dmem == [] && t.pc == 0x01 && t.sp == 0xFF) = true := by decide

/-- CT1. -/
theorem test_call :
    stepsTo 0x2020 (st 0 0 (vnzc 0 0 0 0) 0x12 0xFF []) (fun t => t.dmem == [(0xFF, 0x13)] && t.pc == 0x20 && t.sp == 0xFE) = true := by decide

/-- CT5. -/
theorem test_ret :
    stepsTo 0x2800 (st 0 0 (vnzc 0 0 0 0) 0x30 0xFE [(0xFF, 0x13)]) (fun t => t.pc == 0x13 && t.sp == 0xFF) = true := by decide

/-- CT7: sp wraps. -/
theorem test_ret_wraps :
    stepsTo 0x2800 (st 0 0 (vnzc 0 0 0 0) 0x30 0xFF [(0x00, 0x44)]) (fun t => t.pc == 0x44 && t.sp == 0x00) = true := by decide

/-- CT8 and CT9. -/
theorem test_breq :
    stepsTo 0x3040 (st 0 0 (vnzc 0 0 1 0) 0x10 0xFF []) (fun t => t.pc == 0x40) = true ∧
      stepsTo 0x3040 (st 0 0 (vnzc 1 1 0 1) 0x10 0xFF []) (fun t => t.pc == 0x11) = true := by decide

/-- CT10 and CT11. -/
theorem test_brcs :
    stepsTo 0x3140 (st 0 0 (vnzc 0 0 0 1) 0x10 0xFF []) (fun t => t.pc == 0x40) = true ∧
      stepsTo 0x3140 (st 0 0 (vnzc 1 1 1 0) 0x10 0xFF []) (fun t => t.pc == 0x11) = true := by decide

/-- CT12 and CT13. -/
theorem test_brvs :
    stepsTo 0x3240 (st 0 0 (vnzc 1 0 0 0) 0x10 0xFF []) (fun t => t.pc == 0x40) = true ∧
      stepsTo 0x3240 (st 0 0 (vnzc 0 1 1 1) 0x10 0xFF []) (fun t => t.pc == 0x11) = true := by decide

/-- CT14 to CT17. -/
theorem test_brlt :
    stepsTo 0x3340 (st 0 0 (vnzc 0 1 0 0) 0x10 0xFF []) (fun t => t.pc == 0x40) = true ∧
      stepsTo 0x3340 (st 0 0 (vnzc 1 0 0 0) 0x10 0xFF []) (fun t => t.pc == 0x40) = true ∧
      stepsTo 0x3340 (st 0 0 (vnzc 1 1 0 0) 0x10 0xFF []) (fun t => t.pc == 0x11) = true ∧
      stepsTo 0x3340 (st 0 0 (vnzc 0 0 1 1) 0x10 0xFF []) (fun t => t.pc == 0x11) = true := by decide

/-- CT22: the condition field of JMP is ignored. -/
theorem test_jmp : stepsTo 0x3F03 (st 0 0 (vnzc 0 0 0 0) 0x10 0xFF []) (fun t => t.pc == 0x03) = true := by decide

/-- AR4: V, Z and C together. -/
theorem test_add :
    stepsTo 0x4001 (st 0x80 0x80 (vnzc 0 0 0 0) 0x10 0xFF []) (fun t => t.regs.r0 == 0x00 && t.flags == vnzc 1 0 1 1) = true := by decide

/-- AR6: the same register twice. -/
theorem test_add_same_register :
    stepsTo 0x4101 (st 0 0x55 (vnzc 0 0 0 0) 0x10 0xFF []) (fun t => t.regs.r1 == 0xAA && t.flags == vnzc 1 1 0 0) = true := by decide

/-- AR11. -/
theorem test_sub :
    stepsTo 0x5001 (st 0x7F 0xFF (vnzc 0 0 0 0) 0x10 0xFF []) (fun t => t.regs.r0 == 0x80 && t.flags == vnzc 1 1 0 1) = true := by decide

/-- AR12: the same register twice. -/
theorem test_sub_same_register :
    stepsTo 0x5101 (st 0 0xC7 (vnzc 0 0 0 0) 0x10 0xFF []) (fun t => t.regs.r1 == 0x00 && t.flags == vnzc 0 0 1 0) = true := by decide

/-- As AR17, with R0 and R1: greater unsigned, less signed. -/
theorem test_cp :
    stepsTo 0x5801 (st 0xF0 0x10 (vnzc 0 0 0 0) 0x10 0xFF []) (fun t => t.regs.r0 == 0xF0 && t.flags == vnzc 0 1 0 0) = true := by decide

/-- AR19. -/
theorem test_addi :
    stepsTo 0xC1FF (st 0 0x05 (vnzc 0 0 0 0) 0x10 0xFF []) (fun t => t.regs.r1 == 0x04 && t.flags == vnzc 0 0 0 1) = true := by decide

/-- As AR23, with R1. -/
theorem test_subi :
    stepsTo 0xD180 (st 0 0x7F (vnzc 0 0 0 0) 0x10 0xFF []) (fun t => t.regs.r1 == 0xFF && t.flags == vnzc 1 1 0 1) = true := by decide

/-- As AR26, with R1. -/
theorem test_cpi :
    stepsTo 0xD9FF (st 0 0x00 (vnzc 0 0 0 0) 0x10 0xFF []) (fun t => t.regs.r1 == 0x00 && t.flags == vnzc 0 0 0 1) = true := by decide

/-- DM2: unused bits set. -/
theorem test_mov :
    stepsTo 0x78F9 (st 0x11 0x22 (vnzc 1 0 1 0) 0x10 0xFF []) (fun t => t.regs.r0 == 0x22 && t.flags == vnzc 1 0 1 0) = true := by decide

/-- DM6, and SP15: the fetch at 0xFF wraps pc. -/
theorem test_ldi :
    stepsTo 0xFFFF (st 0 0 (vnzc 0 0 0 0) 0x10 0xFF []) (fun t => t.regs.r7 == 0xFF && t.flags == vnzc 0 0 0 0) = true ∧
      stepsTo 0xF805 (st 0 0 (vnzc 0 0 0 0) 0xFF 0xFF []) (fun t => t.regs.r0 == 0x05 && t.pc == 0x00) = true := by decide

/-- CR1. -/
theorem test_clc : stepsTo 0x9000 (st 0 0 (vnzc 1 1 1 1) 0x10 0xFF []) (fun t => t.flags == vnzc 1 1 1 0) = true := by decide

/-- CR4. -/
theorem test_sec : stepsTo 0x9800 (st 0 0 (vnzc 0 0 0 0) 0x10 0xFF []) (fun t => t.flags == vnzc 0 0 0 1) = true := by decide

/-- CR7. -/
theorem test_ror :
    stepsTo 0xA100 (st 0 0x01 (vnzc 0 0 0 0) 0x10 0xFF []) (fun t => t.regs.r1 == 0x00 && t.flags == vnzc 1 0 1 1) = true := by decide

/-- CR6 with R1: the table's V, not the prose's. -/
theorem test_ror_table_v :
    stepsTo 0xA100 (st 0 0x7F (vnzc 0 0 0 1) 0x10 0xFF []) (fun t => t.regs.r1 == 0xBF && t.flags == vnzc 0 1 0 1) = true := by decide

/-- CR15. -/
theorem test_rol :
    stepsTo 0xA900 (st 0 0xC0 (vnzc 0 0 0 1) 0x10 0xFF []) (fun t => t.regs.r1 == 0x81 && t.flags == vnzc 0 1 0 1) = true := by decide

/-- SP1. -/
theorem test_stop :
    stepsTo 0xB800 (st 0 0 (vnzc 1 0 1 0) 0x10 0xFF []) (fun t => t.status == .stopped && t.pc == 0x11 && t.flags == vnzc 1 0 1 0) = true := by
  decide

/-- SP3, SP13 and CT20. -/
theorem test_undocumented_words :
    step ((st 0 0 (vnzc 0 0 0 0) 0x10 0xFF []).withFetchWord 16 0x4800) = .refused (.undocumented 0x4800 0x10) ∧
      step ((st 0 0 (vnzc 0 0 0 0) 0x10 0xFF []).withFetchWord 16 0xF000) = .refused (.undocumented 0xF000 0x10) ∧
      step ((st 0 0 (vnzc 0 0 0 0) 0x10 0xFF []).withFetchWord 16 0x3740) = .refused (.undocumented 0x3740 0x10) := ⟨rfl, rfl, rfl⟩

/-- 10_state.md R17: V is bit 3, N bit 2, Z bit 1, C bit 0. -/
theorem test_sr_layout : (vnzc 1 0 0 0).toBits = 8#4 ∧ (vnzc 0 1 0 0).toBits = 4#4 ∧ (vnzc 0 0 1 0).toBits = 2#4 ∧ (vnzc 0 0 0 1).toBits = 1#4 := by
  decide

/-- The corner cases of 40_alu_function.md R84 for the sum. -/
theorem test_alu_add_corners :
    (addResult 0xFF 0x01, addFlags 0xFF 0x01) = (0x00, vnzc 0 0 1 1) ∧ (addResult 0x7F 0x01, addFlags 0x7F 0x01) = (0x80, vnzc 1 1 0 0) ∧
      (addResult 0x80 0x7F, addFlags 0x80 0x7F) = (0xFF, vnzc 0 1 0 0) ∧ (addResult 0xFF 0xFF, addFlags 0xFF 0xFF) = (0xFE, vnzc 0 1 0 1) := by
  decide

/-- The corner cases of 40_alu_function.md R84 for the difference. -/
theorem test_alu_sub_corners :
    (subResult 0x00 0x01, subFlags 0x00 0x01) = (0xFF, vnzc 0 1 0 1) ∧ (subResult 0x80 0x7F, subFlags 0x80 0x7F) = (0x01, vnzc 1 0 0 0) ∧
      (subResult 0x7F 0x80, subFlags 0x7F 0x80) = (0xFF, vnzc 1 1 0 1) ∧ (subResult 0x00 0x80, subFlags 0x00 0x80) = (0x80, vnzc 1 1 0 1) := by
  decide

/-- 95_test_vectors.md section 1.2: the cycles of `ST (R1),R0`, the hidden registers holding other values before. -/
theorem test_micro_st :
    (Micro.run stSequence ⟨st 0x64 0x7B (vnzc 0 0 0 0) 0x11 0xFF [], 0x0001, 0xEE, 0xEE, 0xEE⟩).map (fun v => (v.arch.dmem, v.mar, v.mdr)) =
      some ([(0x7B, 0x64)], 0x7B, 0x64) := by decide

/-- 95_test_vectors.md section 1.2: the cycles of `CALL $20` fetched at 0x12. -/
theorem test_micro_call :
    (Micro.run callSequence ⟨st 0 0 (vnzc 0 0 0 0) 0x13 0xFF [], 0x2020, 0xEE, 0xEE, 0xEE⟩).map
      (fun v => (v.arch.dmem, v.arch.pc, v.arch.sp)) = some ([(0xFF, 0x13)], 0x20, 0xFE) := by decide

/-- 70_reset_and_hazards.md R144: a cycle that loads AC from an ALU row without a RESULT has no outcome, nor one that loads MAR from an undriven bus. -/
theorem test_micro_no_value :
    (Micro.cycle [.wac, .op1] ⟨State.reset, 0, 0, 0, 0⟩).isNone = true ∧ (Micro.cycle [.wmar] ⟨State.reset, 0, 0, 0, 0⟩).isNone = true := by decide

-- The assembler, 95_test_vectors.md sections 1.4 and 4.2

/-- Ejemplo 1, as the source prints it. -/
theorem test_assemble_mult :
    assembleText ["MULT: LDI R0,0 ;Inicializa R0 a 0", "CPI R2,0", "BREQ RETORNA ;Salta al final si R2=0", "BUCLE: ADD R0,R1", "SUBI R2,1",
      "BREQ RETORNA", "JMP BUCLE ;Repite bucle", "RETORNA: RET ;Retorno de subrutina"] =
      some [0xF800, 0xDA00, 0x3007, 0x4001, 0xD201, 0x3007, 0x3803, 0x2800] := by decide

theorem test_assemble_words :
    assembleText ["ST (R1),R0"] = some [0x0001] ∧ assembleText ["STS $7B,R2"] = some [0x127B] ∧ assembleText ["STS 123,R2"] = some [0x127B] ∧
      assembleText ["LDI R0,-1"] = some [0xF8FF] ∧ assembleText ["BRLO 7"] = some [0x3107] ∧ assembleText ["CALL 255"] = some [0x20FF] := by decide

theorem test_assemble_rejects :
    assembleText ["SUBI R8,$80"] = none ∧ assembleText ["LDI R0,256"] = none ∧ assembleText ["NOP"] = none ∧ assembleText ["BRXX 7"] = none := by
  decide

/-- 30_encoding.md R64: the register names are R0 to R7, so R07, R01 in parentheses, R12 and R9 are none. -/
theorem test_assemble_register_names :
    assembleText ["ROR R7"] = some [0xA700] ∧ assembleText ["ROR R07"] = none ∧ assembleText ["ST (R01),R0"] = none ∧
      assembleText ["ROR R12"] = none ∧ assembleText ["ROR R9"] = none := by decide

-- How a program comes to run: launch with the words of P5 of 95_test_vectors.md, first step

theorem test_launch_first_step :
    (match step (State.launch { Launch.default with prog := Memory.ofWords 0 [0x2002, 0xB800] }) with
      | .next t => t.dmem == [(0xFF, 0x01)] && t.pc == 0x02 && t.sp == 0xFE
      | .fault _ => false
      | .refused _ => false) = true := by decide

-- Witnesses: for every statement with hypotheses, a state and operands that meet them

/-- A running state with one word at pc. -/
def runningAt (w : Nat) : State := (st 0x64 0x7B (vnzc 0 0 0 1) 0x10 0x80 [(0x81, 0x13)]).withFetchWord 16 w

theorem witness_StepRunsDecodedInstruction :
    (runningAt 0x4001).status = .running ∧ decode (runningAt 0x4001).fetch = .add .r0 .r1 ∧ (Instr.add .r0 .r1).wellFormed = true := by decide

theorem witness_StepRunsDecodedInstruction_undocumented :
    (runningAt 0x37FF).status = .running ∧ decode (runningAt 0x37FF).fetch = .undocBr 0b111 0xFF ∧ (Instr.undocBr 0b111 0xFF).wellFormed = true := by decide

theorem witness_DecodeInvertsEncode : (Instr.undocBr 0b100 0x00).wellFormed = true ∧ (Instr.st .r7 .r7).wellFormed = true := by decide

/-- For the statements over the rows of the table: a row with unused bits and one without. -/
theorem witness_rows :
    (⟨"RET", 0x2800, 0xF800, 0xFFFF⟩ ∈ opcodeTable ∧ OpcodeRow.selects ⟨"RET", 0x2800, 0xF800, 0xFFFF⟩ 0x2FFF = true) ∧
      (⟨"LDI", 0xF800, 0xF800, 0xF800⟩ ∈ opcodeTable ∧ OpcodeRow.selects ⟨"LDI", 0xF800, 0xF800, 0xF800⟩ 0xFFFF = true) := by decide

theorem witness_ReencodingClearsUnusedBits :
    ⟨"JMP", 0x3800, 0xF800, 0xFF00⟩ ∈ opcodeTable ∧ OpcodeRow.selects ⟨"JMP", 0x3800, 0xF800, 0xFF00⟩ 0x3F03 = true := by decide

theorem witness_UnusedBitsDoNotMatter :
    ⟨"ST", 0x0000, 0xF800, 0xF8F8⟩ ∈ opcodeTable ∧ OpcodeRow.selects ⟨"ST", 0x0000, 0xF800, 0xF8F8⟩ 0x00F9 = true := by decide

theorem witness_EveryWordSelectsItsRow : ⟨"BRLT", 0x3300, 0xFF00, 0xFF00⟩ ∈ opcodeTable := by decide

/-- Both branches of the conclusion: no unused bit set, and one set. -/
theorem witness_StrictOptionRefusesUnusedBits :
    ⟨"ROR", 0xA000, 0xF800, 0xF8FF⟩ ∈ opcodeTable ∧ (runningAt 0xA700).status = .running ∧
      OpcodeRow.selects ⟨"ROR", 0xA000, 0xF800, 0xF8FF⟩ (runningAt 0xA700).fetch = true ∧
      OpcodeRow.selects ⟨"ROR", 0xA000, 0xF800, 0xF8FF⟩ (runningAt 0xA7FF).fetch = true ∧
      (runningAt 0xA700).fetch &&& OpcodeRow.unusedBits ⟨"ROR", 0xA000, 0xF800, 0xF8FF⟩ = 0 ∧
      (runningAt 0xA7FF).fetch &&& OpcodeRow.unusedBits ⟨"ROR", 0xA000, 0xF800, 0xF8FF⟩ ≠ 0 := by decide

theorem witness_UndocumentedCodesAreRefused :
    (runningAt 0x4800).status = .running ∧ (runningAt 0x4800).fetch.extractLsb' 11 5 = 0b01001#5 ∧
      (runningAt 0xF7FF).status = .running ∧ (runningAt 0xF7FF).fetch.extractLsb' 11 5 = 0b11110#5 := by decide

theorem witness_UndocumentedCodesAreRefused_instr : Instr.undoc11110 0x7FF ∈ [Instr.undoc01001 0x7FF, .undoc11110 0x7FF] := by decide

theorem witness_UndocumentedConditionsAreRefused :
    (runningAt 0x3400).status = .running ∧ (runningAt 0x3400).fetch.extractLsb' 11 5 = 0b00110#5 ∧ (runningAt 0x3400).fetch.getLsbD 10 = true ∧
      (runningAt 0x37FF).fetch.extractLsb' 11 5 = 0b00110#5 ∧ (runningAt 0x37FF).fetch.getLsbD 10 = true := by decide

theorem witness_BranchesFollowTheirConditions : (0b100#3).getLsbD 2 = true ∧ (0b111#3).getLsbD 2 = true := by decide

/-- A CALL at 0x10 with sp = 0x80, and the state after it as the state before the RET. -/
theorem witness_CallThenRetReturns :
    ∃ t, (runningAt 0x2020).status = .running ∧ decode (runningAt 0x2020).fetch = .call 0x20 ∧ step (runningAt 0x2020) = .next t ∧
      t.sp = t.sp ∧ t.readData (runningAt 0x2020).sp = 0x11 := ⟨_, rfl, rfl, rfl, rfl, rfl⟩

theorem witness_ArithmeticDependsOnOperandsOnly : Instr.cpi .r0 0xFF ∈ [Instr.add .r0 .r0, .cpi .r0 0xFF] := by decide

/-- The four compares of the statement, with equal operands, the same register twice, and a borrow. -/
theorem witness_CompareDecidesBranches :
    (∃ t, exec (.cp .r0 .r0) (runningAt 0) = .next t) ∧ (∃ t, exec (.sub .r0 .r1) (runningAt 0) = .next t) ∧ (∃ t, exec (.cpi .r0 0xFF) (runningAt 0) = .next t) ∧
      ∃ t, exec (.subi .r0 0x64) (runningAt 0) = .next t := ⟨⟨_, rfl⟩, ⟨_, rfl⟩, ⟨_, rfl⟩, ⟨_, rfl⟩⟩

theorem witness_MovCopiesRegister : Reg.r7 = Reg.r7 := rfl

theorem witness_RotatesAreInverse :
    (∃ t u, exec (.ror .r1) (runningAt 0) = .next t ∧ exec (.rol .r1) t = .next u) ∧ ∃ t u, exec (.rol .r1) (runningAt 0) = .next t ∧ exec (.ror .r1) t = .next u :=
  ⟨⟨_, _, rfl, rfl⟩, ⟨_, _, rfl, rfl⟩⟩

theorem witness_NineRotationsRestore : Instr.rol .r7 ∈ [Instr.ror .r7, .rol .r7] ∧ Instr.ror .r0 ∈ [Instr.ror .r0, .rol .r0] := by decide

theorem witness_StopIsTerminal :
    ∃ t, (runningAt 0xB800).status = .running ∧ decode (runningAt 0xB800).fetch = .stop ∧ step (runningAt 0xB800) = .next t := ⟨_, rfl, rfl, rfl⟩

/-- Both directions: a STOP, and another instruction that completes. -/
theorem witness_OnlyStopStops : (∃ t, step (runningAt 0xBFFF) = .next t ∧ t.status = .stopped) ∧ ∃ t, step (runningAt 0x4001) = .next t ∧ t.status = .running :=
  ⟨⟨_, rfl, rfl⟩, ⟨_, rfl, rfl⟩⟩

theorem witness_RunningStepCompletesOrIsUndocumented :
    ((runningAt 0x2800).status = .running ∧ (decode (runningAt 0x2800).fetch).documented = true) ∧
      ((runningAt 0x3400).status = .running ∧ (decode (runningAt 0x3400).fetch).documented = false) ∧ (runningAt 0).halt.status = .stopped := by decide

theorem witness_ProgramMemoryIsConstant : ∃ t, Sys2Proof.core.run 2 (runningAt 0x3810) = .next t := ⟨_, rfl⟩

/-- An ADD into R0 seen from another register, and a CP seen from its own first operand. -/
theorem witness_RegistersChangeOnlyAtDestination :
    (∃ t, step (runningAt 0x4001) = .next t) ∧ (decode (runningAt 0x4001).fetch).destination ≠ some .r1 ∧
      (∃ t, step (runningAt 0x5801) = .next t) ∧ (decode (runningAt 0x5801).fetch).destination ≠ some .r0 :=
  ⟨⟨_, rfl⟩, by decide, ⟨_, rfl⟩, by decide⟩

/-- A ST seen from the cell beside the one it writes, and a CALL seen from the cell below sp. -/
theorem witness_DataChangesOnlyAtStoreAddress :
    (∃ t, step (runningAt 0x0001) = .next t) ∧ (decode (runningAt 0x0001).fetch).storeAddress { runningAt 0x0001 with pc := (runningAt 0x0001).pc + 1 } ≠ some 0x7C ∧
      (∃ t, step (runningAt 0x2020) = .next t) ∧ (decode (runningAt 0x2020).fetch).storeAddress { runningAt 0x2020 with pc := (runningAt 0x2020).pc + 1 } ≠ some 0x7F :=
  ⟨⟨_, rfl⟩, by decide, ⟨_, rfl⟩, by decide⟩

theorem witness_ReadReturnsTheLastWrite :
    (∃ t, Sys2Proof.core.run 1 (runningAt 0x0001) = .next t) ∧ StoresNever 0x81 1 (runningAt 0x0001) :=
  ⟨⟨_, rfl⟩, by decide, fun _ _ => trivial⟩

/-- The clause on the step that writes: `ST (R1),R0` with R1 = 0x7B, then a step on an unlisted word, which writes cell 0x64. -/
theorem witness_ReadReturnsTheLastWrite_write :
    ∃ t u, step (runningAt 0x0001) = .next t ∧ (decode (runningAt 0x0001).fetch).storeAddress (runningAt 0x0001).advance = some 0x7B ∧
      (decode (runningAt 0x0001).fetch).storedByte (runningAt 0x0001).advance = some 0x64 ∧ Sys2Proof.core.run 1 t = .next u ∧
      StoresNever 0x7B 1 t :=
  ⟨_, _, rfl, by decide, by decide, rfl, by decide, fun _ _ => trivial⟩

/-- A CLC, which changes C only, and a RET, which changes no flag. -/
theorem witness_FlagsChangeOnlyWhereListed :
    ((∃ t, step (runningAt 0x9000) = .next t) ∧ (decode (runningAt 0x9000).fetch).writesAllFlags = false) ∧
      (∃ t, step (runningAt 0x2800) = .next t) ∧ (decode (runningAt 0x2800).fetch).writesAllFlags = false ∧
      (decode (runningAt 0x2800).fetch).writesCarryOnly = false :=
  ⟨⟨⟨_, rfl⟩, by decide⟩, ⟨_, rfl⟩, by decide, by decide⟩

/-- A branch not taken, and a LDI at address 0xFF. -/
theorem witness_PcAdvancesUnlessTransferred :
    ((∃ t, step (runningAt 0x3040) = .next t) ∧ (decode (runningAt 0x3040).fetch).transfers (runningAt 0x3040).flags = false) ∧
      ∃ t, step ({ runningAt 0 with pc := 0xFF }.withFetchWord 16 0xF805) = .next t ∧ t.pc = 0x00 :=
  ⟨⟨⟨_, rfl⟩, by decide⟩, ⟨_, rfl, rfl⟩⟩

/-- A CALL, a RET and a MOV. -/
theorem witness_OnlyCallAndRetMoveSp :
    (∃ t, step (runningAt 0x2020) = .next t ∧ t.sp = 0x7F) ∧ (∃ t, step (runningAt 0x2800) = .next t ∧ t.sp = 0x81) ∧ ∃ t, step (runningAt 0x7801) = .next t ∧ t.sp = 0x80 :=
  ⟨⟨_, rfl, rfl⟩, ⟨_, rfl, rfl⟩, ⟨_, rfl, rfl⟩⟩

/-- Two steps that are both the CALL at 0x10, calling itself. -/
theorem witness_SpCountsCallsAndReturns :
    (∃ t, Sys2Proof.core.run 2 (runningAt 0x2010) = .next t) ∧ countSteps Instr.isCall 2 (runningAt 0x2010) = 2 := ⟨⟨_, rfl⟩, rfl⟩

theorem witness_StepKeepsInvariant :
    ((runningAt 0x0001).Inv ∧ ∃ t, step (runningAt 0x0001) = .next t) ∧ (runningAt 0x2020).Inv ∧ ∃ t, step (runningAt 0x2020) = .next t :=
  ⟨⟨⟨rfl, rfl⟩, ⟨_, rfl⟩⟩, ⟨rfl, rfl⟩, ⟨_, rfl⟩⟩

theorem witness_ResetMeetsInvariant :
    Memory.wf Config.unlistedCell Config.dmemCells [(0, 1), (255, 2)] = true ∧
      Memory.wf Config.unlistedWord Config.pmemWords (Memory.ofWords 0 [0x2002, 0x0000, 0xB800]) = true := by decide

/-- The form refuses each thing it rules out: falling addresses, one address twice, the fill value, an address outside. -/
theorem test_memory_wf_refuses :
    Memory.wf Config.unlistedCell Config.dmemCells [(2, 1), (1, 1)] = false ∧ Memory.wf Config.unlistedCell Config.dmemCells [(1, 1), (1, 2)] = false ∧
      Memory.wf Config.unlistedCell Config.dmemCells [(1, 0)] = false ∧ Memory.wf Config.unlistedCell Config.dmemCells [(256, 1)] = false := by decide

theorem witness_CanonicalMemoriesAreEqual :
    Memory.wf Config.unlistedCell Config.dmemCells [(0, 1), (255, 2)] = true ∧
      Memory.wf Config.unlistedCell Config.dmemCells (Memory.write Config.unlistedCell 0 1 [(255, 2)]) = true ∧
      ∀ a : Byte, Memory.read Config.unlistedCell a.toNat [(0, 1), (255, 2)] =
        Memory.read Config.unlistedCell a.toNat (Memory.write Config.unlistedCell 0 1 [(255, 2)]) := ⟨rfl, rfl, fun _ => rfl⟩

theorem witness_StSequenceRefinesSt : decode (Micro.mk (runningAt 0) 0x0001 1 2 3).ir = .st .r1 .r0 := by decide

theorem witness_CallSequenceRefinesCall : decode (Micro.mk (runningAt 0) 0x27FF 1 2 3).ir = .call 0xFF := by decide

theorem witness_MicroCyclesRefineTheStep :
    (Micro.mk (runningAt 0x0001) 0 1 2 3).arch.status = .running ∧ decode (Micro.mk (runningAt 0x0001) 0 1 2 3).arch.fetch = .st .r1 .r0 ∧
      (Micro.mk (runningAt 0x2020) 0 1 2 3).arch.status = .running ∧ decode (Micro.mk (runningAt 0x2020) 0 1 2 3).arch.fetch = .call 0x20 := by decide

theorem witness_AssemblyLineAssembles : (Instr.st .r7 .r0).documented = true ∧ (Instr.ldi .r7 0xFF).documented = true := by decide

/-- The ends of each range. -/
theorem witness_AssemblerAcceptsRanges :
    asmDatum (-128) = some 0x80 ∧ asmDatum 255 = some 0xFF ∧ asmDatum (-129) = none ∧ asmDatum 256 = none ∧ asmAddress 0 = some 0x00 ∧
      asmAddress 255 = some 0xFF ∧ asmAddress (-1) = none ∧ asmAddress 256 = none ∧ asmReg 0 = some .r0 ∧ asmReg 7 = some .r7 ∧ asmReg 8 = none := by
  decide

end Sys2Proof.Tests
end

/-! PROOFS. The family 10_state.md. `Effect` says once what a completed instruction has done to the state; the frame of each state component and the
obligations of the family are read off from it. -/

namespace Sys2Proof.Machine

/-- What an instruction that completes from `s` has done, by the state component it writes: the one inversion of `exec` from which the frame
facts follow. Each case carries the classification of `i` (Safety) that tells it from the others. -/
inductive Effect (s : State) (i : Instr) : State → Prop
  /-- LD, LDS, MOV, LDI. -/
  | load (d : Reg) (x : Byte) (hd : i.destination = some d) (hf : i.writesAllFlags = false) : Effect s i (s.writeReg d x)
  /-- ADD, SUB, ADDI, SUBI, ROR, ROL. -/
  | alu (d : Reg) (x : Byte) (f : Flags) (hd : i.destination = some d) (hf : i.writesAllFlags = true) :
    Effect s i ((s.writeReg d x).setFlags f)
  /-- CP, CPI. -/
  | compare (f : Flags) (hf : i.writesAllFlags = true) : Effect s i (s.setFlags f)
  /-- CLC, SEC. -/
  | carry (c : Bool) (hc : i.writesCarryOnly = true) : Effect s i (s.setFlags { s.flags with c := c })
  /-- ST, STS. -/
  | store (a x : Byte) (ha : i.storeAddress s = some a) (hx : i.storedByte s = some x) : Effect s i (s.writeData a x)
  /-- JMP and the four documented branches. -/
  | jump (k : Byte) : Effect s i (s.jumpIf (i.transfers s.flags) k)
  | call (k : Byte) (hi : i = .call k) : Effect s i ((s.push s.pc).setPc k)
  | ret (hi : i = .ret) : Effect s i (s.incSp.setPc s.incSp.atSp)
  | stop (hi : i = .stop) : Effect s i s.halt

variable {s t : State} {i : Instr}

theorem exec_effect (h : exec i s = .next t) : Effect s i t := by
  cases i with
  | ld | lds | mov | ldi => cases h; exact .load _ _ rfl rfl
  | add | sub | addi | subi | ror | rol => cases h; exact .alu _ _ _ rfl rfl
  | cp | cpi => cases h; exact .compare _ rfl
  | clc | sec => cases h; exact .carry _ rfl
  | st | sts => cases h; exact .store _ _ rfl rfl
  | breq k | brcs k | brvs k | brlt k | jmp k => cases h; exact .jump k
  | call k => cases h; exact .call k rfl
  | ret => cases h; exact .ret rfl
  | stop => cases h; exact .stop rfl
  | _ => cases h

theorem step_effect (h : step s = .next t) : Effect s.advance (decode s.fetch) t :=
  exec_effect (step_next h).2.2

/-! The frame of each state component. -/

theorem Effect.readReg (h : Effect s i t) {r : Reg} (hr : i.destination ≠ some r) : t.readReg r = s.readReg r := by
  cases h with
  | load d x hd | alu d x f hd =>
    have hrd : r ≠ d := by rintro rfl; exact hr hd
    simpa using State.readReg_writeReg_other s hrd x
  | _ => simp

theorem Effect.flags (h : Effect s i t) (hf : i.writesAllFlags = false) :
    t.flags = { s.flags with c := t.flags.c } ∧ (i.writesCarryOnly = false → t.flags.c = s.flags.c) := by
  cases h with
  | alu _ _ _ _ hf' | compare _ hf' => simp [hf'] at hf
  | carry c hc => simp [hc]
  | _ => simp

theorem Effect.pc (h : Effect s i t) (ht : i.transfers s.flags = false) : t.pc = s.pc := by
  cases h with
  | call k hi | ret hi => subst hi; cases ht
  | jump k => simp [ht]
  | _ => simp

theorem Effect.sp (h : Effect s i t) (hcall : i.isCall = false) (hret : i.isRet = false) : t.sp = s.sp := by
  cases h with
  | call k hi | ret hi => subst hi; contradiction
  | _ => simp

/-! What a whole step of a CALL and of a RET does. -/

theorem isCall_iff : i.isCall = true ↔ ∃ k, i = .call k := by
  cases i <;> simp [Instr.isCall]

theorem isRet_iff : i.isRet = true ↔ i = .ret := by simp [Instr.isRet]

theorem step_call {k : Byte} (hi : decode s.fetch = .call k) (h : step s = .next t) :
    t = (s.advance.push (s.pc + 1)).setPc k := by
  obtain ⟨-, -, hexec⟩ := step_next h
  rw [hi, exec_call] at hexec
  cases hexec
  rfl

theorem step_ret (hi : decode s.fetch = .ret) (h : step s = .next t) :
    t = s.advance.incSp.setPc s.advance.incSp.atSp := by
  obtain ⟨-, -, hexec⟩ := step_next h
  rw [hi, exec_ret] at hexec
  cases hexec
  rfl

/-- RET returns to the address in the cell above sp (10_state.md R18). -/
theorem atSp_incSp (s : State) : s.incSp.atSp = s.readData (s.sp + 1) := rfl

/-! The word placed for the next step, and the count of a run. -/

@[simp] theorem fetch_withFetchWord (s : State) (w : InstrWord) : (s.withFetchWord 16 w.toNat).fetch = w := by
  have hw : BitVec.ofNat 16 (w.toNat % 2 ^ 16) = w := by rw [Nat.mod_eq_of_lt w.isLt, BitVec.ofNat_toNat, BitVec.setWidth_eq]
  exact (Memory.read_write_same _ _ _).trans hw

theorem countSteps_succ (p : Instr → Bool) (k : Nat) (h : step s = .next t) :
    countSteps p (k + 1) s = (if p (decode s.fetch) then 1 else 0) + countSteps p k t := by
  simp only [countSteps, h]

/-! The canonical form determines the memory. -/

section Canonical

variable {w : Nat} {fill : BitVec w} {size : Nat}

theorem Memory.wfFrom_cons {lo a : Nat} {x : BitVec w} {m : Memory w} :
    Memory.wfFrom fill size lo ((a, x) :: m) = true ↔ lo ≤ a ∧ a < size ∧ x ≠ fill ∧ Memory.wfFrom fill size (a + 1) m = true := by
  simp [Memory.wfFrom, and_assoc]

@[simp] theorem Memory.read_cons_same (a : Nat) (x : BitVec w) (m : Memory w) : Memory.read fill a ((a, x) :: m) = x := by
  simp [Memory.read]

/-- The first listed address of a canonical memory tells it from every canonical memory whose addresses all lie above. -/
theorem Memory.read_head_ne {lo a : Nat} {x : BitVec w} {m n : Memory w} (hm : Memory.wfFrom fill size lo ((a, x) :: m) = true)
    (hn : Memory.wfFrom fill size (a + 1) n = true) : Memory.read fill a ((a, x) :: m) ≠ Memory.read fill a n := by
  obtain ⟨-, -, hx, -⟩ := Memory.wfFrom_cons.mp hm
  rw [Memory.read_cons_same, Memory.read_below (Nat.lt_succ_self a) hn]
  exact hx

/-- Canonical memories that read the same at every address of the address space are the same list. -/
theorem Memory.eq_of_read_eq {lo : Nat} {m n : Memory w} (hm : Memory.wfFrom fill size lo m = true) (hn : Memory.wfFrom fill size lo n = true)
    (h : ∀ a < size, Memory.read fill a m = Memory.read fill a n) : m = n := by
  induction m generalizing lo n with
  | nil =>
    cases n with
    | nil => rfl
    | cons e n =>
      obtain ⟨-, ha, -, -⟩ := Memory.wfFrom_cons.mp hn
      exact absurd (h _ ha).symm (Memory.read_head_ne hn rfl)
  | cons e m ih =>
    obtain ⟨a, x⟩ := e
    obtain ⟨-, ha, hx, hm'⟩ := Memory.wfFrom_cons.mp hm
    cases n with
    | nil => exact absurd (h a ha) (Memory.read_head_ne hm rfl)
    | cons e n =>
      obtain ⟨b, y⟩ := e
      obtain ⟨-, hb, hy, hn'⟩ := Memory.wfFrom_cons.mp hn
      obtain hab | rfl | hba := Nat.lt_trichotomy a b
      · exact absurd (h a ha) (Memory.read_head_ne hm (Memory.wfFrom_cons.mpr ⟨hab, hb, hy, hn'⟩))
      · obtain rfl : x = y := by simpa using h a ha
        have htail : ∀ c < size, Memory.read fill c m = Memory.read fill c n := by
          intro c hc
          by_cases hca : a = c
          · rw [Memory.read_below (by omega) hm', Memory.read_below (by omega) hn']
          · simpa [Memory.read, hca] using h c hc
        rw [ih hm' hn' htail]
      · exact absurd (h b hb).symm (Memory.read_head_ne hn (Memory.wfFrom_cons.mpr ⟨hba, ha, hx, hm'⟩))

end Canonical

/-! The obligations of the family. -/

/-- Settles O1: the default decoder refuses no word. -/
theorem stepRunsDecodedInstruction : Obligations.StepRunsDecodedInstruction := by
  intro s i hs hi _
  rw [step_running hs, hi]
  rfl

/-- Settles O2: the placed word is the word fetched. -/
theorem placedWordRunsNext : Obligations.PlacedWordRunsNext := by
  intro s w
  rw [step_running rfl, fetch_withFetchWord]

/-- Settles O20: RET reads the cell one above the decremented sp, which is the one CALL wrote. -/
theorem callThenRetReturns : Obligations.CallThenRetReturns := by
  intro s t u k _ hi hstep
  obtain rfl := step_call hi hstep
  have hcell : ((s.advance.push (s.pc + 1)).setPc k).readData s.sp = s.pc + 1 := by simp [State.readData_push]
  refine ⟨hcell, fun hsp hkept => ⟨_, exec_ret u, ?_, ?_⟩⟩
  · have habove : u.sp + 1 = s.sp := by simp [hsp]
    rw [State.setPc_pc, atSp_incSp, habove, hkept, hcell]
  · simp [hsp]

/-- Settles O43: only loads and ALU results write a register, and that is the destination. -/
theorem registersChangeOnlyAtDestination : Obligations.RegistersChangeOnlyAtDestination := by
  intro s t r h hr
  exact (step_effect h).readReg hr

/-- Settles O46: besides the ALU results and the compares, only CLC and SEC load SR, and they pass V, N and Z through. -/
theorem flagsChangeOnlyWhereListed : Obligations.FlagsChangeOnlyWhereListed := by
  intro s t h hf
  obtain ⟨hvnz, hc⟩ := (step_effect h).flags hf
  rw [hvnz]
  exact ⟨rfl, rfl, rfl, hc⟩

/-- Settles O47: pc moves in the execute phase only by a transfer, so it keeps the fetch increment. -/
theorem pcAdvancesUnlessTransferred : Obligations.PcAdvancesUnlessTransferred := by
  intro s t h ht
  rw [(step_effect h).pc ht, State.advance_pc, BitVec.toNat_add]
  rfl

/-- Settles O48: CALL and RET by what they do to sp, every other instruction by the frame of sp. -/
theorem onlyCallAndRetMoveSp : Obligations.OnlyCallAndRetMoveSp := by
  intro s t h
  split_ifs with hcall hret
  · obtain ⟨k, hi⟩ := isCall_iff.mp hcall
    simp [step_call hi h]
  · simp [step_ret (isRet_iff.mp hret) h]
  · exact (step_effect h).sp (by simpa using hcall) (by simpa using hret)

/-- One step's own share of the equation of 10_state.md R19. -/
theorem step_sp_count (h : step s = .next t) :
    t.sp = s.sp - BitVec.ofNat 8 (if (decode s.fetch).isCall then 1 else 0) + BitVec.ofNat 8 (if (decode s.fetch).isRet then 1 else 0) := by
  rw [onlyCallAndRetMoveSp s t h]
  by_cases hcall : (decode s.fetch).isCall = true
  · obtain ⟨k, hi⟩ := isCall_iff.mp hcall
    simp [hi, Instr.isCall, Instr.isRet]
  · by_cases hret : (decode s.fetch).isRet = true <;> simp [hcall, hret]

/-- Settles O49, by induction on the number of steps. -/
theorem spCountsCallsAndReturns : Obligations.SpCountsCallsAndReturns := by
  intro k
  induction k with
  | zero =>
    intro s t h
    cases h
    simp [countSteps]
  | succ k ih =>
    intro s t h
    obtain ⟨u, hstep, hrun⟩ := run_next h
    rw [ih u t hrun, step_sp_count hstep, countSteps_succ _ k hstep, countSteps_succ _ k hstep, BitVec.ofNat_add, BitVec.ofNat_add]
    ring

/-- Settles O51: a launch takes its memories over as they are, and those of reset are empty. -/
theorem resetMeetsInvariant : Obligations.ResetMeetsInvariant :=
  ⟨⟨rfl, rfl⟩, fun _ hdmem hprog => ⟨hdmem, hprog⟩⟩

/-- Settles O53: every address of the data memory is a byte. -/
theorem canonicalMemoriesAreEqual : Obligations.CanonicalMemoriesAreEqual := by
  intro m n hm hn h
  exact Memory.eq_of_read_eq hm hn fun a ha => h (BitVec.ofNatLT a ha)

end Sys2Proof.Machine

/-! PROOFS. The family 20_memory.md. `exec_dmem` says once what a completed instruction has done to data memory, `Effect.prog` that it has done nothing
to program memory; the obligations of the family follow, those about runs by induction on the number of steps. -/

namespace Sys2Proof.Machine

variable {s t : State} {i : Instr}

/-- ST, STS and CALL write the one cell they address; every other instruction that completes addresses none and writes none. -/
theorem exec_dmem (h : exec i s = .next t) :
    (i.storeAddress s = none ∧ t.dmem = s.dmem) ∨
      ∃ a x, i.storeAddress s = some a ∧ i.storedByte s = some x ∧ t.dmem = (s.writeData a x).dmem := by
  cases i with
  | st | sts | call => cases h; exact .inr ⟨_, _, rfl, rfl, rfl⟩
  | breq | brcs | brvs | brlt => cases h; exact .inl ⟨rfl, State.jumpIf_dmem _ _ _⟩
  | ld | lds | ret | jmp | add | sub | cp | mov | clc | sec | ror | rol | stop | addi | subi | cpi | ldi =>
    cases h; exact .inl ⟨rfl, rfl⟩
  | _ => cases h

theorem step_dmem (h : step s = .next t) :
    ((decode s.fetch).storeAddress s.advance = none ∧ t.dmem = s.dmem) ∨
      ∃ a x, (decode s.fetch).storeAddress s.advance = some a ∧ (decode s.fetch).storedByte s.advance = some x ∧
        t.dmem = (s.writeData a x).dmem :=
  exec_dmem (step_next h).2.2

theorem Effect.prog (h : Effect s i t) : t.prog = s.prog := by
  cases h <;> simp

theorem step_prog (h : step s = .next t) : t.prog = s.prog := (step_effect h).prog

/-- A data read depends on the state through its data memory only. -/
theorem State.readData_congr (h : t.dmem = s.dmem) (a : Byte) : t.readData a = s.readData a := by
  rw [State.readData, State.readData, h]

/-- The cell a step addresses holds the byte it stores. -/
theorem readData_storeAddress {a x : Byte} (h : step s = .next t) (ha : (decode s.fetch).storeAddress s.advance = some a)
    (hx : (decode s.fetch).storedByte s.advance = some x) : t.readData a = x := by
  obtain ⟨hnone, -⟩ | ⟨b, y, hb, hy, hdmem⟩ := step_dmem h
  · cases hnone.symm.trans ha
  · cases hb.symm.trans ha
    cases hy.symm.trans hx
    rw [State.readData_congr hdmem, State.readData_writeData_same]

/-! The obligations of the family. -/

/-- Settles O50: a step leaves the data memory as it is or writes one of its cells, and leaves program memory as it is. -/
theorem stepKeepsInvariant : Obligations.StepKeepsInvariant := by
  rintro s t ⟨hdmem, hprog⟩ h
  refine ⟨?_, (step_prog h).symm ▸ hprog⟩
  obtain ⟨-, hkept⟩ | ⟨a, x, -, -, hwritten⟩ := step_dmem h
  · rwa [hkept]
  · rw [hwritten]
    exact s.writeData_wf a x hdmem

/-- Settles O42, by induction on the number of steps. -/
theorem programMemoryIsConstant : Obligations.ProgramMemoryIsConstant := by
  intro k
  induction k with
  | zero =>
    intro s t h
    cases h
    rfl
  | succ k ih =>
    intro s t h
    obtain ⟨u, hstep, hrun⟩ := run_next h
    exact (ih u t hrun).trans (step_prog hstep)

/-- Settles O44: the one cell a step may write is the one it addresses. -/
theorem dataChangesOnlyAtStoreAddress : Obligations.DataChangesOnlyAtStoreAddress := by
  intro s t a h ha
  obtain ⟨-, hkept⟩ | ⟨b, x, hb, -, hwritten⟩ := step_dmem h
  · exact State.readData_congr hkept a
  · have hab : a ≠ b := by
      rintro rfl
      exact ha hb
    rw [State.readData_congr hwritten, s.readData_writeData_other hab]

/-- The frame of a data cell along a run that never writes it, by induction on the number of steps. -/
theorem readData_run {a : Byte} {k : Nat} (h : Sys2Proof.core.run k s = .next t) (hnever : StoresNever a k s) : t.readData a = s.readData a := by
  induction k generalizing s with
  | zero =>
    cases h
    rfl
  | succ k ih =>
    obtain ⟨u, hstep, hrun⟩ := run_next h
    obtain ⟨hne, hrest⟩ := hnever
    exact (ih hrun (hrest u hstep)).trans (dataChangesOnlyAtStoreAddress s u a hstep hne)

/-- Settles O45: the byte stored is read after the step, and the run that follows keeps it. -/
theorem readReturnsTheLastWrite : Obligations.ReadReturnsTheLastWrite :=
  ⟨fun _ _ _ _ hrun hnever => readData_run hrun hnever,
    fun _ _ _ _ _ _ hstep ha hx hrun hnever => (readData_run hrun hnever).trans (readData_storeAddress hstep ha hx)⟩

end Sys2Proof.Machine

/-! PROOFS. The family 30_encoding.md. `describes_decode` says once which row of the opcode table a word belongs to, and what is left of the word when the
instruction it decodes to is encoded again; the statements about rows are read off from it. -/

namespace Sys2Proof

open Sys2Proof.Machine

/-! Decoding an encoded instruction. -/

theorem decodeBranch_undocumented {cc : BitVec 3} (h : cc.getLsbD 2 = true) (k : Byte) : decodeBranch cc k = .undocBr cc k := by
  obtain ⟨rfl, -⟩ | ⟨rfl, -⟩ | ⟨rfl, -⟩ | ⟨rfl, -⟩ | ⟨-, hd⟩ := decodeBranch_cases cc k
  case inr.inr.inr.inr => exact hd
  all_goals cases h

/-- Each format gives back the fields it was put together from, and the operation code, with the condition for a branch, tells the
instruction. -/
theorem decode_encode {i : Instr} (h : i.wellFormed = true) : decode (encode i) = i := by
  cases i with
  | undocBr cc k => simp [encode, decode, decodeBranch_undocumented h]
  | breq | brcs | brvs | brlt => simp [encode, decode, decodeBranch]
  | _ => simp [encode, decode]

/-! The formats filled with the fields of a word: the word with the bits cleared that the format does not use. -/

section Fields

variable {w : InstrWord} {op : BitVec 5} (hop : fieldOp w = op)

include hop

theorem formatA_fields : formatA op (fieldRd w) (fieldRs w) = w &&& ~~~0x00F8#16 := by
  subst hop
  apply BitVec.eq_of_getLsbD_eq
  intro j hj
  rw [getLsbD_formatA, fieldRd_toBits, fieldRs, Reg.toBits_ofBits, BitVec.getLsbD_and, fieldOp, fieldCc]
  interval_cases j <;> simp

theorem formatC_fields : formatC op (fieldCc w) (fieldK w) = w &&& ~~~0x0000#16 := by
  rw [← hop, ← word_eq_formatC]
  exact BitVec.and_allOnes.symm

theorem formatC_fields_cc_zero : formatC op 0 (fieldK w) = w &&& ~~~0x0700#16 := by
  subst hop
  apply BitVec.eq_of_getLsbD_eq
  intro j hj
  rw [getLsbD_formatC, BitVec.getLsbD_and, fieldOp, fieldK]
  interval_cases j <;> simp

theorem formatB_fields : formatB op (fieldRd w) (fieldK w) = w &&& ~~~0x0000#16 := by
  rw [formatB_eq_formatC, fieldRd_toBits, formatC_fields hop]

theorem formatB_fields_k_zero : formatB op (fieldRd w) 0 = w &&& ~~~0x00FF#16 := by
  rw [formatB_eq_formatC, fieldRd_toBits, ← hop]
  exact (and_ccMask w).symm

theorem formatRest_fields : formatRest op (fieldRest w) = w &&& ~~~0x0000#16 := by
  rw [← hop, ← word_eq_formatRest]
  exact BitVec.and_allOnes.symm

theorem formatRest_fields_zero : formatRest op 0 = w &&& ~~~0x07FF#16 := by
  rw [← hop]
  exact (and_opMask w).symm

end Fields

/-! The row of a word. -/

/-- The row of the opcode table that `w` selects bears the mnemonic of `i`, and encoding `i` gives `w` back but for the row's unused bits. -/
structure OpcodeRow.Describes (row : OpcodeRow) (w : InstrWord) (i : Instr) : Prop where
  mem : row ∈ opcodeTable
  selects : row.selects w = true
  mnemonic : row.mnemonic = i.mnemonic
  encode : encode i = w &&& ~~~row.unusedBits

theorem OpcodeRow.selects_iff {row : OpcodeRow} {w : InstrWord} : row.selects w = true ↔ w &&& row.mask = row.pattern := by
  simp [OpcodeRow.selects]

section Rows

variable {w : InstrWord} {i : Instr} (m : String)

/-- A row that the operation code alone selects. -/
theorem describes_of_op {op : BitVec 5} (strictMask : InstrWord) (hop : fieldOp w = op)
    (hmem : ⟨m, formatRest op 0, 0xF800, strictMask⟩ ∈ opcodeTable) (hm : m = i.mnemonic)
    (he : encode i = w &&& ~~~(strictMask &&& ~~~0xF800#16)) : ∃ row : OpcodeRow, row.Describes w i :=
  ⟨_, hmem, OpcodeRow.selects_iff.mpr (hop ▸ and_opMask w), hm, he⟩

/-- A row that the operation code 00110 and a condition of the condition table select. -/
theorem describes_of_cc {cc : BitVec 3} (hop : fieldOp w = 0b00110) (hcc : fieldCc w = cc)
    (hmem : ⟨m, formatC 0b00110 cc 0, 0xFF00, 0xFF00⟩ ∈ opcodeTable) (hm : m = i.mnemonic)
    (he : encode i = formatC 0b00110 cc (fieldK w)) : ∃ row : OpcodeRow, row.Describes w i :=
  ⟨_, hmem, OpcodeRow.selects_iff.mpr (hop ▸ hcc ▸ and_ccMask w), hm, by
    simpa [he, ← hcc, OpcodeRow.unusedBits] using formatC_fields hop⟩

/-- The row of the conditions 1xx. -/
theorem describes_undocumented_cc (hop : fieldOp w = 0b00110) (hcc : (fieldCc w).getLsbD 2 = true) :
    ∃ row : OpcodeRow, row.Describes w (.undocBr (fieldCc w) (fieldK w)) := by
  have hbits : ∀ cc : BitVec 3, cc.getLsbD 2 = true → formatC 0b00110 cc 0 &&& 0xFC00#16 = 0x3400#16 := by decide
  have hsel : w &&& 0xFC00#16 = 0x3400#16 := by
    rw [show 0xFC00#16 = 0xFF00#16 &&& 0xFC00#16 from rfl, ← BitVec.and_assoc, and_ccMask, hop]
    exact hbits _ hcc
  exact ⟨⟨"undocumented_BRxx_condition_1xx", 0x3400, 0xFC00, 0xFC00⟩, by decide, OpcodeRow.selects_iff.mpr hsel, rfl, formatC_fields hop⟩

theorem describes_decodeBranch (hop : fieldOp w = 0b00110) : ∃ row : OpcodeRow, row.Describes w (decodeBranch (fieldCc w) (fieldK w)) := by
  obtain ⟨hcc, hd⟩ | ⟨hcc, hd⟩ | ⟨hcc, hd⟩ | ⟨hcc, hd⟩ | ⟨hcc, hd⟩ := decodeBranch_cases (fieldCc w) (fieldK w) <;> rw [hd]
  · exact describes_of_cc "BREQ" hop hcc (by decide) rfl rfl
  · exact describes_of_cc "BRCS" hop hcc (by decide) rfl rfl
  · exact describes_of_cc "BRVS" hop hcc (by decide) rfl rfl
  · exact describes_of_cc "BRLT" hop hcc (by decide) rfl rfl
  · exact describes_undocumented_cc hop hcc

/-- Every word belongs to a row, by its operation code: the opcode table in the order of the codes, each row with its strict mask and the format it
uses. -/
theorem describes_decode (w : InstrWord) : ∃ row : OpcodeRow, row.Describes w (decode w) := by
  have key : ∀ op, fieldOp w = op → ∃ row : OpcodeRow, row.Describes w (decode w) := by
    apply op_cases
    intro n hop
    unfold decode
    rw [hop]
    fin_cases n
    · exact describes_of_op "ST" 0xF8F8 hop (by decide) rfl (formatA_fields hop)
    · exact describes_of_op "LD" 0xF8F8 hop (by decide) rfl (formatA_fields hop)
    · exact describes_of_op "STS" 0xF800 hop (by decide) rfl (formatB_fields hop)
    · exact describes_of_op "LDS" 0xF800 hop (by decide) rfl (formatB_fields hop)
    · exact describes_of_op "CALL" 0xFF00 hop (by decide) rfl (formatC_fields_cc_zero hop)
    · exact describes_of_op "RET" 0xFFFF hop (by decide) rfl (formatRest_fields_zero hop)
    · exact describes_decodeBranch hop
    · exact describes_of_op "JMP" 0xFF00 hop (by decide) rfl (formatC_fields_cc_zero hop)
    · exact describes_of_op "ADD" 0xF8F8 hop (by decide) rfl (formatA_fields hop)
    · exact describes_of_op "undocumented_01001" 0xF800 hop (by decide) rfl (formatRest_fields hop)
    · exact describes_of_op "SUB" 0xF8F8 hop (by decide) rfl (formatA_fields hop)
    · exact describes_of_op "CP" 0xF8F8 hop (by decide) rfl (formatA_fields hop)
    · exact describes_of_op "undocumented_01100" 0xF800 hop (by decide) rfl (formatRest_fields hop)
    · exact describes_of_op "undocumented_01101" 0xF800 hop (by decide) rfl (formatRest_fields hop)
    · exact describes_of_op "undocumented_01110" 0xF800 hop (by decide) rfl (formatRest_fields hop)
    · exact describes_of_op "MOV" 0xF8F8 hop (by decide) rfl (formatA_fields hop)
    · exact describes_of_op "undocumented_10000" 0xF800 hop (by decide) rfl (formatRest_fields hop)
    · exact describes_of_op "undocumented_10001" 0xF800 hop (by decide) rfl (formatRest_fields hop)
    · exact describes_of_op "CLC" 0xFFFF hop (by decide) rfl (formatRest_fields_zero hop)
    · exact describes_of_op "SEC" 0xFFFF hop (by decide) rfl (formatRest_fields_zero hop)
    · exact describes_of_op "ROR" 0xF8FF hop (by decide) rfl (formatB_fields_k_zero hop)
    · exact describes_of_op "ROL" 0xF8FF hop (by decide) rfl (formatB_fields_k_zero hop)
    · exact describes_of_op "undocumented_10110" 0xF800 hop (by decide) rfl (formatRest_fields hop)
    · exact describes_of_op "STOP" 0xFFFF hop (by decide) rfl (formatRest_fields_zero hop)
    · exact describes_of_op "ADDI" 0xF800 hop (by decide) rfl (formatB_fields hop)
    · exact describes_of_op "undocumented_11001" 0xF800 hop (by decide) rfl (formatRest_fields hop)
    · exact describes_of_op "SUBI" 0xF800 hop (by decide) rfl (formatB_fields hop)
    · exact describes_of_op "CPI" 0xF800 hop (by decide) rfl (formatB_fields hop)
    · exact describes_of_op "undocumented_11100" 0xF800 hop (by decide) rfl (formatRest_fields hop)
    · exact describes_of_op "undocumented_11101" 0xF800 hop (by decide) rfl (formatRest_fields hop)
    · exact describes_of_op "undocumented_11110" 0xF800 hop (by decide) rfl (formatRest_fields hop)
    · exact describes_of_op "LDI" 0xF800 hop (by decide) rfl (formatB_fields hop)
  exact key _ rfl

end Rows

/-! No two rows share a word, and none share a mnemonic. -/

theorem opcodeTable_disjoint : ∀ row ∈ opcodeTable, ∀ row' ∈ opcodeTable, row.pattern &&& row'.mask = row'.pattern &&& row.mask → row = row' := by
  decide

theorem opcodeTable_mnemonics_nodup : (opcodeTable.map OpcodeRow.mnemonic).Nodup := by decide

theorem row_eq_of_selects {row row' : OpcodeRow} {w : InstrWord} (hrow : row ∈ opcodeTable) (hrow' : row' ∈ opcodeTable)
    (h : row.selects w = true) (h' : row'.selects w = true) : row = row' := by
  apply opcodeTable_disjoint row hrow row' hrow'
  rw [OpcodeRow.selects_iff] at h h'
  rw [← h, ← h', BitVec.and_assoc, BitVec.and_assoc, BitVec.and_comm row.mask]

/-- The row that a word selects is the one that describes it. -/
theorem describes_of_selects {row : OpcodeRow} {w : InstrWord} (hrow : row ∈ opcodeTable) (h : row.selects w = true) :
    row.Describes w (decode w) := by
  obtain ⟨row', h'⟩ := describes_decode w
  rwa [row_eq_of_selects hrow h'.mem h h'.selects]

/-- Clearing bits leaves a word as it is exactly when they are 0 in it. -/
theorem and_not_eq_self_iff {n : Nat} (w u : BitVec n) : w &&& ~~~u = w ↔ w &&& u = 0 := by
  constructor
  · intro h
    rw [← h, BitVec.and_assoc, BitVec.and_comm (~~~u), BitVec.and_not_self]
    simp
  · intro h
    calc w &&& ~~~u = w &&& u ||| w &&& ~~~u := by simp [h]
      _ = w := by rw [← BitVec.and_or_distrib_left, BitVec.or_not_self, BitVec.and_allOnes]

theorem refuseUndocumented_advance (ir : InstrWord) (s : State) : refuseUndocumented ir s.advance = .refused (.undocumented ir s.pc) := by
  simp [refuseUndocumented]

theorem stepWith_running (strict : Bool) {s : State} (h : s.status = .running) :
    stepWith strict s = (decodeWith strict s.fetch).elim (refuseUndocumented s.fetch s.advance) (exec · s.advance) := by
  rw [stepWith, h]
  cases decodeWith strict s.fetch <;> rfl

/-! The numbers of the assembler. -/

theorem ofInt_eq_iff (n : Int) (k : Byte) : BitVec.ofInt 8 n = k ↔ (k.toNat : Int) = n % 256 := by
  rw [← BitVec.toNat_inj, BitVec.toNat_ofInt]
  omega

theorem asmReg_eq_some_iff {n : Nat} {r : Reg} : asmReg n = some r ↔ n = r.toBits.toNat := by
  constructor
  · intro h
    obtain ⟨hn, rfl⟩ : n < 8 ∧ Reg.ofBits (BitVec.ofNat 3 n) = r := by simpa [asmReg] using h
    rw [Reg.toBits_ofBits, BitVec.toNat_ofNat, Nat.mod_eq_of_lt hn]
  · rintro rfl
    exact register_asmOfReg r

/-! The obligations of the family. -/

/-- Settles O4, by cases on the instruction. -/
theorem decodeInvertsEncode : Obligations.DecodeInvertsEncode := fun _ => decode_encode

/-- Settles O5: the value of a word is that of its format, the operation code weighing 2048. -/
theorem encodeIsTheCanonicalWord : Obligations.EncodeIsTheCanonicalWord := by
  intro d r k
  simp [encode, toNat_formatA, formatB_eq_formatC, toNat_formatC, toNat_formatRest]

/-- Settles O6: the row that a word selects describes it. -/
theorem reencodingClearsUnusedBits : Obligations.ReencodingClearsUnusedBits :=
  fun _ hrow _ h => (describes_of_selects hrow h).encode

/-- Settles O8: the row that describes the word is the only one it selects and the only one of its mnemonic. -/
theorem everyWordSelectsItsRow : Obligations.EveryWordSelectsItsRow := by
  intro row hrow w
  refine ⟨fun h => (describes_of_selects hrow h).mnemonic, fun h => ?_⟩
  obtain ⟨row', h'⟩ := describes_decode w
  rw [List.inj_on_of_nodup_map opcodeTable_mnemonics_nodup hrow h'.mem (h.trans h'.mnemonic.symm)]
  exact h'.selects

/-- Settles O9: the strict decoder reads the word exactly when encoding gives it back, that is when its unused bits are 0. -/
theorem strictOptionRefusesUnusedBits : Obligations.StrictOptionRefusesUnusedBits := by
  intro row hrow s hrun hsel
  rw [stepWith_running true hrun, stepWith_running false hrun, decodeWith_true, decodeWith_false, (describes_of_selects hrow hsel).encode]
  simp only [and_not_eq_self_iff]
  split
  · rfl
  · exact refuseUndocumented_advance s.fetch s

/-- Settles O57: every operand that `asmOf` writes reads back, and no two mnemonics are spelled the same. -/
theorem assemblyLineAssembles : Obligations.AssemblyLineAssembles := by
  refine ⟨fun ls i h => ?_, fun ls ops => by simp [assembleInstr]⟩
  cases i with
  | ret | clc | sec | stop => exact ⟨_, rfl, by simp [assembleInstr, noOperand]⟩
  | call | breq | brcs | brvs | brlt | jmp | ror | rol => exact ⟨_, rfl, by simp [assembleInstr, oneOperand]⟩
  | st | ld | sts | lds | add | sub | cp | mov | addi | subi | cpi | ldi => exact ⟨_, rfl, by simp [assembleInstr, twoOperands]⟩
  | _ => cases h

/-- Settles O58: `BitVec.ofInt` reduces modulo 2^8, which leaves an address as it is. -/
theorem assemblerAcceptsRanges : Obligations.AssemblerAcceptsRanges := by
  refine ⟨fun n k => ?_, fun n k => ?_, fun n r => asmReg_eq_some_iff⟩
  · simp [asmDatum, ofInt_eq_iff, and_assoc]
  · simp [asmAddress, ofInt_eq_iff, and_assoc]
    omega

/-- Settles O3, by evaluating the decoder on the ten words. -/
theorem sampleWordsDecode : Obligations.SampleWordsDecode := by
  unfold Obligations.SampleWordsDecode
  decide

end Sys2Proof

/-! PROOFS. The family 40_alu_function.md. The flag functions of the model, which speak of exact sums and differences, are the overflow predicates of
`BitVec`, whose equations give the bit formulas; the obligations about C, about V and about the rows of the ALU table follow. -/

namespace Sys2Proof.Machine

/-! The carry and the overflow as the predicates of the library. -/

theorem carryAdd_eq_uaddOverflow (a b : Byte) : carryAdd a b = a.uaddOverflow b := rfl

theorem overflowAdd_eq_saddOverflow (a b : Byte) : overflowAdd a b = a.saddOverflow b := by
  rw [Bool.eq_iff_iff, overflowAdd_iff]
  simp only [BitVec.saddOverflow, Bool.or_eq_true, decide_eq_true_eq]
  omega

theorem overflowSub_eq_ssubOverflow (a b : Byte) : overflowSub a b = a.ssubOverflow b := by
  rw [Bool.eq_iff_iff, overflowSub_iff]
  simp only [BitVec.ssubOverflow, Bool.or_eq_true, decide_eq_true_eq]
  omega

/-! The bits they are. -/

/-- carry(A+B) is bit 8 of the 9-bit sum (40_alu_function.md R81). -/
theorem carryAdd_eq_getLsbD (a b : Byte) : carryAdd a b = (a.setWidth 9 + b.setWidth 9).getLsbD 8 := by
  rw [carryAdd_eq_uaddOverflow, BitVec.uaddOverflow_eq, BitVec.msb_eq_getLsbD_last]

/-- overflow(A+B): the operands agree in sign and the result does not (40_alu_function.md R82). -/
theorem overflowAdd_eq_signs (a b : Byte) :
    overflowAdd a b = (a.getLsbD 7 == b.getLsbD 7 && (addResult a b).getLsbD 7 != a.getLsbD 7) := by
  rw [overflowAdd_eq_saddOverflow, BitVec.saddOverflow_eq]
  simp only [BitVec.msb_eq_getLsbD_last]
  rfl

/-- overflow(A-B): the operands differ in sign and the result does not have that of A (40_alu_function.md R82). -/
theorem overflowSub_eq_signs (a b : Byte) :
    overflowSub a b = (a.getLsbD 7 != b.getLsbD 7 && (subResult a b).getLsbD 7 != a.getLsbD 7) := by
  rw [overflowSub_eq_ssubOverflow, BitVec.ssubOverflow_eq, subResult]
  simp only [BitVec.msb_eq_getLsbD_last, Nat.add_one_sub_one]
  cases a.getLsbD 7 <;> simp

/-- The xor form of the signs of a sum. -/
theorem overflowAdd_eq_xor (a b : Byte) : overflowAdd a b = ((a ^^^ addResult a b) &&& (b ^^^ addResult a b)).getLsbD 7 := by
  rw [overflowAdd_eq_signs, BitVec.getLsbD_and, BitVec.getLsbD_xor, BitVec.getLsbD_xor]
  cases a.getLsbD 7 <;> cases b.getLsbD 7 <;> simp

/-- The xor form of the signs of a difference. -/
theorem overflowSub_eq_xor (a b : Byte) : overflowSub a b = ((a ^^^ b) &&& (a ^^^ subResult a b)).getLsbD 7 := by
  rw [overflowSub_eq_signs, BitVec.getLsbD_and, BitVec.getLsbD_xor, BitVec.getLsbD_xor]
  cases a.getLsbD 7 <;> simp

/-! The results as the low bits of 9-bit sums. -/

/-- RESULT of the addition (40_alu_function.md R76). -/
theorem addResult_eq_setWidth (a b : Byte) : addResult a b = (a.setWidth 9 + b.setWidth 9).setWidth 8 := by
  rw [BitVec.setWidth_add _ _ (by decide)]
  simp [addResult]

/-- RESULT of the subtraction, by adding the complement and 1 (40_alu_function.md R77). -/
theorem subResult_eq_setWidth (a b : Byte) : subResult a b = (a.setWidth 9 + (~~~b).setWidth 9 + 1).setWidth 8 := by
  rw [BitVec.setWidth_add _ _ (by decide), BitVec.setWidth_add _ _ (by decide), subResult, BitVec.sub_eq_add_neg, BitVec.neg_eq_not_add]
  simp [BitVec.add_assoc]

/-! The rows of the ALU table. -/

section Rows

variable {op : BitVec 4} (a b : Byte) (f : Flags)

theorem alu_of_ofCode {row : AluOp} (h : AluOp.ofCode op = some row) : alu op a b f = some (row.out a b f) := by
  rw [alu, h, Option.map_some]

/-- 40_alu_function.md R73, with V by the table (D18). -/
theorem alu_shr : alu 0b0100 a b f =
    some ⟨some (shrResult a f.c), some ⟨f.c ^^ a.getLsbD 0, (shrResult a f.c).getLsbD 7, shrResult a f.c == 0, a.getLsbD 0⟩⟩ := rfl

/-- 40_alu_function.md R74. -/
theorem alu_shl : alu 0b0101 a b f =
    some ⟨some (shlResult a f.c),
      some ⟨a.getLsbD 7 ^^ a.getLsbD 6, (shlResult a f.c).getLsbD 7, shlResult a f.c == 0, a.getLsbD 7⟩⟩ := rfl

/-- 40_alu_function.md R76. -/
theorem alu_add (h : AluOp.ofCode op = some .add) : alu op a b f =
    some ⟨some (addResult a b),
      some ⟨overflowAdd a b, (addResult a b).getLsbD 7, addResult a b == 0, (a.setWidth 9 + b.setWidth 9).getLsbD 8⟩⟩ := by
  rw [alu_of_ofCode a b f h, ← carryAdd_eq_getLsbD]
  rfl

/-- 40_alu_function.md R77. -/
theorem alu_sub (h : AluOp.ofCode op = some .sub) : alu op a b f =
    some ⟨some (subResult a b),
      some ⟨overflowSub a b, (subResult a b).getLsbD 7, subResult a b == 0, decide (a.toNat < b.toNat)⟩⟩ :=
  alu_of_ofCode a b f h

end Rows

/-! The obligations of the family. -/

/-- Settles O28, row by row: each operation code selects its row whatever its don't-care bits are. -/
theorem aluFollowsItsTable : Obligations.AluFollowsItsTable := by
  intro a b f
  have hclear : ∀ op ∈ [0b0000#4, 0b0010#4], AluOp.ofCode op = some .clearCarry := by decide
  have hpassA : ∀ op ∈ [0b0110#4, 0b0111#4], AluOp.ofCode op = some .passA := by decide
  have hadd : ∀ op ∈ [0b1000#4, 0b1001#4], AluOp.ofCode op = some .add := by decide
  have hsub : ∀ op ∈ [0b1010#4, 0b1011#4], AluOp.ofCode op = some .sub := by decide
  have hpassB : ∀ op ∈ [0b1100#4, 0b1101#4, 0b1110#4, 0b1111#4], AluOp.ofCode op = some .passB := by decide
  refine ⟨?clearCarry, ?setCarry, ?shr, ?shl, ?passA, ?add, ?sub, ?passB, ?noRow⟩
  case clearCarry => exact fun op h => alu_of_ofCode a b f (hclear op h)
  case setCarry => rfl
  case shr =>
    refine ⟨shrResult a f.c, fun i hi => ?_, ?_, alu_shr a b f⟩
    · rw [getLsbD_shrResult, if_pos hi]
    · rw [getLsbD_shrResult, if_neg (by decide), decide_eq_true rfl, Bool.true_and]
  case shl =>
    refine ⟨shlResult a f.c, fun i hi => ?_, ?_, alu_shl a b f⟩
    · rw [getLsbD_shlResult, if_neg (Nat.succ_ne_zero i), decide_eq_true (Nat.succ_lt_succ hi), Bool.true_and, Nat.add_sub_cancel]
    · rw [getLsbD_shlResult, if_pos rfl]
  case passA => exact fun op h => alu_of_ofCode a b f (hpassA op h)
  case add => exact fun op h => ⟨addResult a b, overflowAdd a b, addResult_eq_setWidth a b, overflowAdd_iff a b, alu_add a b f (hadd op h)⟩
  case sub => exact fun op h => ⟨subResult a b, overflowSub a b, subResult_eq_setWidth a b, overflowSub_iff a b, alu_sub a b f (hsub op h)⟩
  case passB => exact fun op h => alu_of_ofCode a b f (hpassB op h)
  case noRow => rw [alu_none]

/-- Settles O29: V says that the exact signed result is out of range, and so do both bit formulas. -/
theorem overflowBitFormulas : Obligations.OverflowBitFormulas := by
  intro a b
  refine ⟨(overflowAdd_iff a b).trans ?_, overflowAdd_eq_signs a b, overflowAdd_eq_xor a b,
    (overflowSub_iff a b).trans ?_, overflowSub_eq_signs a b, overflowSub_eq_xor a b⟩
  · omega
  · omega

/-- Settles O30: the carry as bit 8 and as the sum over 255, the borrow as the order and as the sign of the difference. -/
theorem carryAndBorrow : Obligations.CarryAndBorrow := by
  intro a b
  refine ⟨carryAdd_eq_getLsbD a b, carryAdd_iff a b, borrowSub_iff a b, (borrowSub_iff a b).trans ?_⟩
  omega

end Sys2Proof.Machine

/-! PROOFS. The family 41_memory_access.md. The words of 30_encoding.md R66, put together by OR, are those of the formats A and B; a data write
changes its cell and a register write its register, and nothing else. The four obligations are read off from these. -/

namespace Sys2Proof.Machine

/-! The canonical words of formats A and B. -/

/-- Format A with the operation code in its place and the register numbers shifted to theirs. -/
theorem formatRest_or_inRd_or_inRs (op : BitVec 5) (d r : Reg) : formatRest op 0 ||| inRd d ||| inRs r = formatA op d r := by
  apply BitVec.eq_of_getLsbD_eq
  intro i hi
  rw [BitVec.getLsbD_or, BitVec.getLsbD_or, getLsbD_formatRest, getLsbD_formatA, inRd, inRs]
  interval_cases i <;> simp

/-- Format B with the operation code in its place, the register number shifted to its own, and the datum in the low byte. -/
theorem formatRest_or_inRd_or_inK (op : BitVec 5) (d : Reg) (k : Byte) : formatRest op 0 ||| inRd d ||| inK k = formatB op d k := by
  apply BitVec.eq_of_getLsbD_eq
  intro i hi
  rw [BitVec.getLsbD_or, BitVec.getLsbD_or, getLsbD_formatRest, formatB_eq_formatC, getLsbD_formatC, inRd, inK]
  interval_cases i <;> simp

/-- The decoder undoes the encoder, so the canonical word of a well-formed instruction is what it encodes to. -/
theorem isWordOf_iff {w : InstrWord} {i : Instr} (h : i.wellFormed = true) : IsWordOf w i ↔ encode i = w := by
  refine ⟨And.left, ?_⟩
  rintro rfl
  exact ⟨rfl, decode_encode h⟩

theorem isWordOf_formatA {i : Instr} (op : BitVec 5) {d r : Reg} (h : i.wellFormed = true) (hi : encode i = formatA op d r) :
    IsWordOf (formatRest op 0 ||| inRd d ||| inRs r) i :=
  (isWordOf_iff h).mpr (hi.trans (formatRest_or_inRd_or_inRs op d r).symm)

theorem isWordOf_formatB {i : Instr} (op : BitVec 5) {d : Reg} {k : Byte} (h : i.wellFormed = true) (hi : encode i = formatB op d k) :
    IsWordOf (formatRest op 0 ||| inRd d ||| inK k) i :=
  (isWordOf_iff h).mpr (hi.trans (formatRest_or_inRd_or_inK op d k).symm)

/-! The frames of a data write and of a register write. -/

section Frames

variable (s : State)

theorem keepsAllButCell_writeData (a x : Byte) : KeepsAllButCell a s (s.writeData a x) :=
  ⟨fun r => s.readReg_writeData a x r, fun _ hb => s.readData_writeData_other hb x, rfl, rfl, rfl, rfl, rfl⟩

theorem keepsAllButRegAndFlags_writeReg (d : Reg) (x : Byte) : KeepsAllButRegAndFlags d s (s.writeReg d x) :=
  ⟨fun _ hr => s.readReg_writeReg_other hr x, fun b => s.readData_writeReg d x b, rfl, rfl, rfl, rfl⟩

end Frames

/-! The obligations of the family. -/

/-- Settles O12: ST is one data write, at the value of its base register. -/
theorem stStoresIndirect : Obligations.StStoresIndirect := by
  intro b r s
  exact ⟨isWordOf_formatA 0b00000 rfl rfl, rfl, _, exec_st s b r, s.readData_writeData_same _ _, keepsAllButCell_writeData s _ _⟩

/-- Settles O13: LD is one register write, of the cell addressed before it. -/
theorem ldLoadsIndirect : Obligations.LdLoadsIndirect := by
  intro d b s
  exact ⟨isWordOf_formatA 0b00001 rfl rfl, _, exec_ld s d b, s.readReg_writeReg_same _ _, rfl, keepsAllButRegAndFlags_writeReg s _ _⟩

/-- Settles O14: STS is one data write, at its own address. -/
theorem stsStoresDirect : Obligations.StsStoresDirect := by
  intro k r s
  exact ⟨isWordOf_formatB 0b00010 rfl rfl, rfl, _, exec_sts s k r, s.readData_writeData_same _ _, keepsAllButCell_writeData s _ _⟩

/-- Settles O15: LDS is one register write, of the cell at its own address. -/
theorem ldsLoadsDirect : Obligations.LdsLoadsDirect := by
  intro d k s
  exact ⟨isWordOf_formatB 0b00011 rfl rfl, _, exec_lds s d k, s.readReg_writeReg_same _ _, rfl, keepsAllButRegAndFlags_writeReg s _ _⟩

end Sys2Proof.Machine

/-! PROOFS. The family 42_control_transfer.md. The words of 30_encoding.md R66 with an address are those of format C; a push changes its cell, a
conditional jump is one assignment to pc. The four obligations are read off from these. -/

namespace Sys2Proof.Machine

/-! The canonical words of format C. -/

/-- Format C with the operation code and the condition in their places and the address in the low byte. -/
theorem formatC_or_inK (op : BitVec 5) (cc : BitVec 3) (k : Byte) : formatC op cc 0 ||| inK k = formatC op cc k := by
  apply BitVec.eq_of_getLsbD_eq
  intro i hi
  rw [BitVec.getLsbD_or, getLsbD_formatC, getLsbD_formatC, inK]
  interval_cases i <;> simp

theorem isWordOf_formatC {i : Instr} (op : BitVec 5) (cc : BitVec 3) {k : Byte} (h : i.wellFormed = true) (hi : encode i = formatC op cc k) :
    IsWordOf (formatC op cc 0 ||| inK k) i :=
  (isWordOf_iff h).mpr (hi.trans (formatC_or_inK op cc k).symm)

/-! The stack pointer as a number, the frame of a push, and a conditional jump as one assignment to pc. -/

/-- The condition of BRLT, N xor V. -/
theorem Flags.less_iff (f : Flags) : f.less = true ↔ f.n ≠ f.v := bne_iff_ne

section Transfers

variable (s : State)

theorem toNat_sp_push (x : Byte) : (s.push x).sp.toNat = (s.sp.toNat + 255) % 256 := by
  rw [State.push_sp, BitVec.toNat_sub, Nat.add_comm]
  rfl

theorem toNat_sp_incSp : s.incSp.sp.toNat = (s.sp.toNat + 1) % 256 := by
  rw [State.incSp_sp, BitVec.toNat_add]
  rfl

theorem readData_push_same (x : Byte) : (s.push x).readData s.sp = x := by
  rw [State.readData_push, if_pos rfl]

theorem keepsDataBut_push (x : Byte) : KeepsDataBut s.sp s (s.push x) := by
  intro b hb
  rw [State.readData_push, if_neg hb]

/-- A jump under the condition `p` keeps pc when `p` fails, and nothing but pc changes. -/
theorem jumpIf_eq {taken : Bool} {p : Prop} [Decidable p] (h : taken = true ↔ p) (k : Byte) :
    s.jumpIf taken k = { s with pc := if p then k else s.pc } := by
  by_cases hp : p
  · rw [if_pos hp, h.mpr hp, State.jumpIf_true, State.setPc]
  · rw [if_neg hp, Bool.eq_false_iff.mpr (mt h.mp hp), State.jumpIf_false]

end Transfers

/-! The obligations of the family. -/

/-- Settles O16: CALL is one push of pc, then pc is set. -/
theorem callPushesPcAndJumps : Obligations.CallPushesPcAndJumps := by
  intro k s
  exact ⟨isWordOf_formatC 0b00100 0b000 rfl rfl, _, exec_call s k, readData_push_same s s.pc, toNat_sp_push s s.pc, rfl,
    keepsDataBut_push s s.pc, fun _ => rfl, rfl, rfl, rfl⟩

/-- Settles O17: RET increments sp and reads the cell it then points at. -/
theorem retPopsPc : Obligations.RetPopsPc := by
  intro s
  exact ⟨(isWordOf_iff rfl).mpr rfl, _, exec_ret s, toNat_sp_incSp s, atSp_incSp s, fun _ => rfl, fun _ => rfl, rfl, rfl, rfl⟩

/-- Settles O18: each documented condition is a conditional jump, and the decoder reads every condition 1xx as the undocumented branch. -/
theorem branchesFollowTheirConditions : Obligations.BranchesFollowTheirConditions := by
  intro k s
  refine ⟨isWordOf_formatC 0b00110 0b000 rfl rfl, isWordOf_formatC 0b00110 0b001 rfl rfl, isWordOf_formatC 0b00110 0b010 rfl rfl,
    isWordOf_formatC 0b00110 0b011 rfl rfl, ?breq, ?brcs, ?brvs, ?brlt, fun cc hcc => ⟨?word, ?refused⟩⟩
  case breq => rw [exec_breq, jumpIf_eq s Iff.rfl]
  case brcs => rw [exec_brcs, jumpIf_eq s Iff.rfl]
  case brvs => rw [exec_brvs, jumpIf_eq s Iff.rfl]
  case brlt => rw [exec_brlt, jumpIf_eq s (Flags.less_iff s.flags)]
  case word =>
    have hwf : (Instr.undocBr cc k).wellFormed = true := hcc
    exact (isWordOf_iff hwf).mpr rfl
  case refused => exact exec_undocumented s rfl

/-- Settles O19: JMP sets pc and does nothing else. -/
theorem jmpJumps : Obligations.JmpJumps := by
  intro k s
  exact ⟨isWordOf_formatC 0b00111 0b000 rfl rfl, exec_jmp s k⟩

end Sys2Proof.Machine

/-! PROOFS. The family 43_arithmetic_compare.md. The flags the six operations load are those of the exact sum and difference; a register write
followed by a load of SR changes that register and the flags alone, and overwrites any flags it found. After a subtraction C, V and Z are each one
comparison by their meaning, and N xor V is the sign of the exact difference. -/

namespace Sys2Proof.Machine

/-! The flags of a sum and of a difference, and the comparisons that those of a difference decide. -/

section Differences

variable (a b : Byte)

theorem flagsOfSum_addFlags : FlagsOfSum a b (addFlags a b) :=
  ⟨overflowAdd_iff a b, rfl, isZero_iff (a + b), carryAdd_iff a b⟩

theorem subFlags_v_iff : (subFlags a b).v = true ↔ a.toInt - b.toInt < -128 ∨ 127 < a.toInt - b.toInt := overflowSub_iff a b

theorem subFlags_c_iff : (subFlags a b).c = true ↔ a.toNat < b.toNat := borrowSub_iff a b

theorem flagsOfDifference_subFlags : FlagsOfDifference a b (subFlags a b) :=
  ⟨subFlags_v_iff a b, rfl, isZero_iff (a - b), subFlags_c_iff a b⟩

theorem subFlags_z_iff : (subFlags a b).z = true ↔ a = b := (isZero_iff (a - b)).trans sub_eq_zero

/-- N of a difference is the sign of the exact difference reduced into -128..127 (40_alu_function.md R80). -/
theorem subFlags_n_iff : (subFlags a b).n = true ↔ (a.toInt - b.toInt).bmod 256 < 0 := by
  have hn : (subFlags a b).n = (a - b).msb := (BitVec.msb_eq_getLsbD_last (a - b)).symm
  rw [hn, BitVec.msb_eq_toInt, decide_eq_true_iff, BitVec.toInt_sub]

/-- N and V disagree exactly when the exact difference is negative: where it is out of range, the reduction turns its sign
(43_arithmetic_compare.md R107). -/
theorem subFlags_less_iff : (subFlags a b).less = true ↔ a.toInt < b.toInt := by
  have ha := a.toInt_lt
  have ha' := a.le_toInt
  have hb := b.toInt_lt
  have hb' := b.le_toInt
  rw [Flags.less_iff, Ne, Bool.eq_iff_iff, subFlags_n_iff, subFlags_v_iff, Int.bmod_def]
  omega

end Differences

/-! What a load of SR leaves unchanged, alone and after a register write. -/

section Frames

variable (s : State)

theorem keepsAllButFlags_setFlags (f : Flags) : KeepsAllButFlags s (s.setFlags f) :=
  ⟨fun q => s.readReg_setFlags f q, fun q => s.readData_setFlags f q, rfl, rfl, rfl, rfl⟩

theorem keepsAllButRegAndFlags_writeReg_setFlags (d : Reg) (x : Byte) (f : Flags) :
    KeepsAllButRegAndFlags d s ((s.writeReg d x).setFlags f) :=
  keepsAllButRegAndFlags_writeReg s d x

end Frames

/-! The flags before are no input of the three shared operations (43_arithmetic_compare.md R100). -/

section PreviousFlags

variable (d : Reg) (b : Source) (s : State) (f : Flags)

theorem Source.value_setFlags : b.value (s.setFlags f) = b.value s := by cases b <;> rfl

theorem addInto_setFlags : addInto d b (s.setFlags f) = addInto d b s := by
  rw [addInto_next, addInto_next, State.readReg_setFlags, Source.value_setFlags]
  rfl

theorem subInto_setFlags : subInto d b (s.setFlags f) = subInto d b s := by
  rw [subInto_next, subInto_next, State.readReg_setFlags, Source.value_setFlags]
  rfl

theorem compareWith_setFlags : compareWith d b (s.setFlags f) = compareWith d b s := by
  rw [compareWith_next, compareWith_next, State.readReg_setFlags, Source.value_setFlags]
  rfl

end PreviousFlags

/-! What a subtraction of `b` from Rd leaves in SR, whichever of the four forms it has. -/

section Subtractions

variable {d r : Reg} {k : Byte} {s t : State}

theorem flags_of_compareOrSub (h : exec (.cp d r) s = .next t ∨ exec (.sub d r) s = .next t) :
    t.flags = subFlags (s.readReg d) (s.readReg r) := by
  obtain h | h := h <;> cases h <;> rfl

theorem flags_of_compareOrSub_imm (h : exec (.cpi d k) s = .next t ∨ exec (.subi d k) s = .next t) :
    t.flags = subFlags (s.readReg d) k := by
  obtain h | h := h <;> cases h <;> rfl

end Subtractions

/-! The obligations of the family. -/

/-- Settles O31: the flags are those of the difference, and each branch condition of them is a comparison. -/
theorem compareDecidesBranches : Obligations.CompareDecidesBranches := by
  intro d r x k s t b h
  have hf : t.flags = subFlags (s.readReg d) b := by
    obtain ⟨h, rfl⟩ | ⟨h, rfl⟩ := h
    · exact flags_of_compareOrSub h
    · exact flags_of_compareOrSub_imm h
  refine ⟨?breq, ?brcs, ?brvs, ?brlt⟩
  case breq => rw [exec_breq, jumpIf_eq t (hf ▸ subFlags_z_iff (s.readReg d) b)]
  case brcs => rw [exec_brcs, jumpIf_eq t (hf ▸ subFlags_c_iff (s.readReg d) b)]
  case brvs => rw [exec_brvs, jumpIf_eq t (hf ▸ subFlags_v_iff (s.readReg d) b)]
  case brlt => rw [exec_brlt, jumpIf_eq t (hf ▸ subFlags_less_iff (s.readReg d) b)]

/-- Settles O21: ADD is one register write and one load of SR, both of values read before. -/
theorem addAddsRegisters : Obligations.AddAddsRegisters := by
  intro d r s
  exact ⟨isWordOf_formatA 0b01000 rfl rfl, _, exec_add s d r, s.readReg_writeReg_same _ _, flagsOfSum_addFlags _ _,
    keepsAllButRegAndFlags_writeReg_setFlags s _ _ _⟩

/-- Settles O22: SUB is one register write and one load of SR, both of values read before. -/
theorem subSubtractsRegisters : Obligations.SubSubtractsRegisters := by
  intro d r s
  exact ⟨isWordOf_formatA 0b01010 rfl rfl, _, exec_sub s d r, s.readReg_writeReg_same _ _, flagsOfDifference_subFlags _ _,
    keepsAllButRegAndFlags_writeReg_setFlags s _ _ _⟩

/-- Settles O23: CP is the load of SR that SUB makes. -/
theorem cpSetsFlagsOnly : Obligations.CpSetsFlagsOnly := by
  intro d r s
  exact ⟨isWordOf_formatA 0b01011 rfl rfl, _, exec_cp s d r, flagsOfDifference_subFlags _ _, keepsAllButFlags_setFlags s _,
    _, exec_sub s d r, rfl⟩

/-- Settles O24: ADDI is one register write and one load of SR, both of values read before. -/
theorem addiAddsDatum : Obligations.AddiAddsDatum := by
  intro d k s
  exact ⟨isWordOf_formatB 0b11000 rfl rfl, _, exec_addi s d k, s.readReg_writeReg_same _ _, flagsOfSum_addFlags _ _,
    keepsAllButRegAndFlags_writeReg_setFlags s _ _ _⟩

/-- Settles O25: SUBI is one register write and one load of SR, both of values read before. -/
theorem subiSubtractsDatum : Obligations.SubiSubtractsDatum := by
  intro d k s
  exact ⟨isWordOf_formatB 0b11010 rfl rfl, _, exec_subi s d k, s.readReg_writeReg_same _ _, flagsOfDifference_subFlags _ _,
    keepsAllButRegAndFlags_writeReg_setFlags s _ _ _⟩

/-- Settles O26: CPI is the load of SR that SUBI makes. -/
theorem cpiSetsFlagsOnly : Obligations.CpiSetsFlagsOnly := by
  intro d k s
  exact ⟨isWordOf_formatB 0b11011 rfl rfl, _, exec_cpi s d k, flagsOfDifference_subFlags _ _, keepsAllButFlags_setFlags s _,
    _, exec_subi s d k, rfl⟩

/-- Settles O27: the two forms of an operation share it, and each shared operation overwrites the flags it finds. -/
theorem arithmeticDependsOnOperandsOnly : Obligations.ArithmeticDependsOnOperandsOnly := by
  intro d r s
  refine ⟨(exec_add s d r).trans (exec_addi s d _).symm, (exec_sub s d r).trans (exec_subi s d _).symm,
    (exec_cp s d r).trans (exec_cpi s d _).symm, fun k f => ?flags⟩
  case flags =>
    simp only [List.forall_mem_cons]
    exact ⟨addInto_setFlags d (.reg r) s f, subInto_setFlags d (.reg r) s f, compareWith_setFlags d (.reg r) s f,
      addInto_setFlags d (.imm k) s f, subInto_setFlags d (.imm k) s f, compareWith_setFlags d (.imm k) s f, List.forall_mem_nil _⟩

end Sys2Proof.Machine

/-! PROOFS. The family 44_data_movement.md. MOV and LDI are each one register write, of a value read before it and of the datum; writing back what
a register holds changes nothing. -/

namespace Sys2Proof.Machine

/-- Writing the value a register holds changes no part of the state. -/
@[simp] theorem State.writeReg_readReg (s : State) (r : Reg) : s.writeReg r (s.readReg r) = s :=
  congrArg (fun regs => { s with regs }) (Regs.set_get s.regs r)

/-! The obligations of the family. -/

/-- Settles O32: MOV is one register write, and with one register as both operands it writes back what was read. -/
theorem movCopiesRegister : Obligations.MovCopiesRegister := by
  intro d r s
  refine ⟨isWordOf_formatA 0b01111 rfl rfl, _, exec_mov s d r, s.readReg_writeReg_same _ _, rfl, keepsAllButRegAndFlags_writeReg s _ _, ?same⟩
  case same =>
    rintro rfl
    exact s.writeReg_readReg d

/-- Settles O33: LDI is one register write, of its own datum. -/
theorem ldiLoadsDatum : Obligations.LdiLoadsDatum := by
  intro d k s
  exact ⟨isWordOf_formatB 0b11111 rfl rfl, _, exec_ldi s d k, s.readReg_writeReg_same _ _, rfl, keepsAllButRegAndFlags_writeReg s _ _⟩

end Sys2Proof.Machine

/-! PROOFS. The family 45_carry_and_rotate.md. C and a register form a ring of nine bits, C on top: ROR turns it one place right and ROL one place
left, and neither changes anything but the register and the flags. That the two undo each other and that nine turns are none are then facts about
the rotation of nine bits. -/

namespace Sys2Proof.Machine

/-! The bits of the two shifts, and the flags that are such bits. -/

section Shifts

variable (a : Byte) (cin : Bool)

theorem getLsbD_shrResult_of_lt {i : Nat} (h : i < 7) : (shrResult a cin).getLsbD i = a.getLsbD (i + 1) := by
  rw [getLsbD_shrResult, if_pos h]

theorem getLsbD_shrResult_seven : (shrResult a cin).getLsbD 7 = cin := by
  rw [getLsbD_shrResult, if_neg (by decide), decide_eq_true rfl, Bool.true_and]

theorem getLsbD_shlResult_zero : (shlResult a cin).getLsbD 0 = cin := by
  rw [getLsbD_shlResult, if_pos rfl]

theorem getLsbD_shlResult_succ {i : Nat} (h : i < 7) : (shlResult a cin).getLsbD (i + 1) = a.getLsbD i := by
  rw [getLsbD_shlResult, if_neg (Nat.succ_ne_zero i), decide_eq_true (Nat.succ_lt_succ h), Bool.true_and, Nat.add_sub_cancel]

/-- N after SHR is the carry that entered (45_carry_and_rotate.md R116). -/
theorem shrFlags_n (rule : RorVRule) : (shrFlags rule a cin).n = cin := getLsbD_shrResult_seven a cin

/-- N after SHL is bit 6 of the operand (45_carry_and_rotate.md R117). -/
theorem shlFlags_n : (shlFlags a cin).n = a.getLsbD 6 := getLsbD_shlResult_succ a cin (by decide)

/-- SHR is a right rotation of the nine bits of C and the operand. -/
theorem cons_shrResult : BitVec.cons (a.getLsbD 0) (shrResult a cin) = (BitVec.cons cin a).rotateRight 1 := by
  apply BitVec.eq_of_getLsbD_eq
  intro i hi
  rw [BitVec.getLsbD_cons, getLsbD_shrResult, BitVec.getLsbD_rotateRight, BitVec.getLsbD_cons, BitVec.getLsbD_cons]
  interval_cases i <;> simp

/-- SHL is a left rotation of the nine bits of C and the operand. -/
theorem cons_shlResult : BitVec.cons (a.getLsbD 7) (shlResult a cin) = (BitVec.cons cin a).rotateLeft 1 := by
  apply BitVec.eq_of_getLsbD_eq
  intro i hi
  rw [BitVec.getLsbD_cons, getLsbD_shlResult, BitVec.getLsbD_rotateLeft, BitVec.getLsbD_cons, BitVec.getLsbD_cons]
  interval_cases i <;> simp

end Shifts

/-! The two rotations of nine bits. -/

/-- One place right, bit 0 to bit 8. -/
def turnRight (x : BitVec 9) : BitVec 9 := x.rotateRight 1

/-- One place left, bit 8 to bit 0. -/
def turnLeft (x : BitVec 9) : BitVec 9 := x.rotateLeft 1

theorem turnLeft_turnRight : Function.LeftInverse turnLeft turnRight := by
  intro x
  apply BitVec.eq_of_getLsbD_eq
  intro i hi
  rw [turnLeft, turnRight, BitVec.getLsbD_rotateLeft, BitVec.getLsbD_rotateRight, BitVec.getLsbD_rotateRight]
  interval_cases i <;> simp

/-- There are finitely many values of nine bits, so the inverse on one side is the inverse on the other. -/
theorem turnRight_turnLeft : Function.LeftInverse turnRight turnLeft :=
  turnLeft_turnRight.rightInverse_of_surjective (Finite.surjective_of_injective turnLeft_turnRight.injective)

theorem getLsbD_turnRight (x : BitVec 9) {i : Nat} (h : i < 9) : (turnRight x).getLsbD i = x.getLsbD ((i + 1) % 9) := by
  rw [turnRight, BitVec.getLsbD_rotateRight]
  interval_cases i <;> simp

theorem getLsbD_turnRight_iterate (n : Nat) (x : BitVec 9) {i : Nat} (h : i < 9) :
    (turnRight^[n] x).getLsbD i = x.getLsbD ((i + n) % 9) := by
  induction n generalizing x with
  | zero => rw [Function.iterate_zero_apply, Nat.add_zero, Nat.mod_eq_of_lt h]
  | succ n ih =>
    rw [Function.iterate_succ_apply, ih, getLsbD_turnRight x (Nat.mod_lt _ (by decide)), Nat.mod_add_mod, Nat.add_assoc]

theorem turnRight_iterate_nine : turnRight^[9] = id := by
  funext x
  apply BitVec.eq_of_getLsbD_eq
  intro i hi
  rw [getLsbD_turnRight_iterate 9 x hi, Nat.add_mod_right, Nat.mod_eq_of_lt hi, id]

/-- Nine turns left undo nine turns right, which are none. -/
theorem turnLeft_iterate_nine : turnLeft^[9] = id :=
  (turnRight_iterate_nine ▸ turnLeft_turnRight.iterate 9).comp_eq_id

/-! The ring of C and a register, and what an instruction that turns it does to the state. -/

/-- The nine bits that ROR and ROL rotate: C on top of the register. -/
def State.ring (s : State) (d : Reg) : BitVec 9 := BitVec.cons s.flags.c (s.readReg d)

/-- `t` is `s` but for Rd and the flags, and the ring of C and Rd holds in `t` the image under `g` of what it held in `s`. -/
def TurnsRing (d : Reg) (g : BitVec 9 → BitVec 9) (s t : State) : Prop :=
  (∃ x f, t = (s.writeReg d x).setFlags f) ∧ t.ring d = g (s.ring d)

theorem State.ring_writeReg_setFlags (s : State) (d : Reg) (x : Byte) (f : Flags) :
    ((s.writeReg d x).setFlags f).ring d = BitVec.cons f.c x := by
  simp [State.ring]

/-- The ring determines C and the register. -/
theorem ring_eq_iff {s t : State} {d : Reg} : t.ring d = s.ring d ↔ t.flags.c = s.flags.c ∧ t.readReg d = s.readReg d := by
  constructor
  · intro h
    exact ⟨by simpa [State.ring] using congrArg BitVec.msb h, by simpa [State.ring] using congrArg (BitVec.setWidth 8) h⟩
  · rintro ⟨hc, hd⟩
    rw [State.ring, State.ring, hc, hd]

/-- The later of two writes to one register and of two loads of SR stays. -/
theorem writeReg_setFlags_twice (s : State) (d : Reg) (x y : Byte) (f f' : Flags) :
    (((s.writeReg d x).setFlags f).writeReg d y).setFlags f' = (s.writeReg d y).setFlags f' := by
  simp [State.writeReg, State.setFlags]

section Ring

variable {d : Reg} {g g' : BitVec 9 → BitVec 9} {s t u : State} {i : Instr}

theorem turnsRing_refl : TurnsRing d id s s :=
  ⟨⟨s.readReg d, s.flags, by rw [State.writeReg_readReg]; rfl⟩, rfl⟩

theorem TurnsRing.comp (h : TurnsRing d g s t) (h' : TurnsRing d g' t u) : TurnsRing d (g' ∘ g) s u := by
  obtain ⟨⟨x, f, rfl⟩, hring⟩ := h
  obtain ⟨⟨y, f', rfl⟩, hring'⟩ := h'
  exact ⟨⟨y, f', writeReg_setFlags_twice s d x y f f'⟩, hring'.trans (congrArg g' hring)⟩

/-- A ring that is back where it was leaves at most V, N and Z changed. -/
theorem TurnsRing.eq_setFlags (h : TurnsRing d id s t) : t = s.setFlags { t.flags with c := s.flags.c } := by
  obtain ⟨⟨x, f, rfl⟩, hring⟩ := h
  obtain ⟨hc, hd⟩ := ring_eq_iff.mp hring
  obtain rfl : x = s.readReg d := by simpa using hd
  rw [← hc, State.writeReg_readReg]
  rfl

theorem turnsRing_of_exec_ror (h : exec (.ror d) s = .next t) : TurnsRing d turnRight s t := by
  cases h
  exact ⟨⟨_, _, rfl⟩, (s.ring_writeReg_setFlags d _ _).trans (cons_shrResult _ _)⟩

theorem turnsRing_of_exec_rol (h : exec (.rol d) s = .next t) : TurnsRing d turnLeft s t := by
  cases h
  exact ⟨⟨_, _, rfl⟩, (s.ring_writeReg_setFlags d _ _).trans (cons_shlResult _ _)⟩

theorem execTimes_succ (n : Nat) (h : exec i s = .next u) : execTimes i (n + 1) s = execTimes i n u := by
  simp only [execTimes, h]

/-- An instruction that completes and turns the ring by `g` turns it by `g` at each of its executions in a row. -/
theorem execTimes_turnsRing (hi : i.documented = true) (hg : ∀ s t, exec i s = .next t → TurnsRing d g s t) (n : Nat) (s : State) :
    ∃ t, execTimes i n s = .next t ∧ TurnsRing d g^[n] s t := by
  induction n generalizing s with
  | zero => exact ⟨s, rfl, turnsRing_refl⟩
  | succ n ih =>
    obtain ⟨u, hu⟩ := exec_documented s hi
    obtain ⟨t, ht, hturn⟩ := ih u
    exact ⟨t, (execTimes_succ n hu).trans ht, (hg s u hu).comp hturn⟩

end Ring

/-! The canonical words of the rotates: format B with the low byte 0. -/

theorem isWordOf_formatB_zero {i : Instr} (op : BitVec 5) {d : Reg} (h : i.wellFormed = true) (hi : encode i = formatB op d 0) :
    IsWordOf (formatRest op 0 ||| inRd d) i := by
  simpa [inK] using isWordOf_formatB op h hi

/-! The obligations of the family. -/

/-- Settles O37: the second rotate turns the ring back, and its own flags are the last loaded. -/
theorem rotatesAreInverse : Obligations.RotatesAreInverse := by
  intro d s t u
  refine ⟨fun ht hu => ?rorRol, fun ht hu => ?rolRor⟩
  case rorRol =>
    have hback : TurnsRing d id s u := turnLeft_turnRight.comp_eq_id ▸ (turnsRing_of_exec_ror ht).comp (turnsRing_of_exec_rol hu)
    have hflags : u.flags = shlFlags (t.readReg d) t.flags.c := by cases hu; rfl
    rw [hback.eq_setFlags, ← hflags]
    exact ⟨rfl, rfl⟩
  case rolRor =>
    have hback : TurnsRing d id s u := turnRight_turnLeft.comp_eq_id ▸ (turnsRing_of_exec_rol ht).comp (turnsRing_of_exec_ror hu)
    have hflags : u.flags = shrFlags .table (t.readReg d) t.flags.c := by cases hu; rfl
    rw [hback.eq_setFlags, ← hflags]
    exact ⟨rfl, rfl⟩

/-- Settles O38: nine turns of nine bits are none, in both directions. -/
theorem nineRotationsRestore : Obligations.NineRotationsRestore := by
  intro d s i hi
  have hback : ∃ t, execTimes i 9 s = .next t ∧ TurnsRing d id s t := by
    obtain rfl | rfl : i = .ror d ∨ i = .rol d := by simpa using hi
    · exact turnRight_iterate_nine ▸ execTimes_turnsRing rfl (fun _ _ => turnsRing_of_exec_ror) 9 s
    · exact turnLeft_iterate_nine ▸ execTimes_turnsRing rfl (fun _ _ => turnsRing_of_exec_rol) 9 s
  obtain ⟨t, ht, hturn⟩ := hback
  refine ⟨t, ht, ?_⟩
  rw [hturn.eq_setFlags]
  exact ⟨rfl, rfl, rfl, rfl, rfl, rfl, rfl⟩

/-- Settles O34: both load the flags of SR back with a new C. -/
theorem clcSecChangeCarryOnly : Obligations.ClcSecChangeCarryOnly :=
  ⟨(isWordOf_iff rfl).mpr rfl, (isWordOf_iff rfl).mpr rfl, fun s => ⟨exec_clc s, exec_sec s⟩⟩

/-- Settles O35: ROR is one register write and one load of SR, both of values read before. -/
theorem rorRotatesRight : Obligations.RorRotatesRight := by
  intro d s
  refine ⟨isWordOf_formatB_zero 0b10100 rfl rfl, _, exec_ror s d, ?_⟩
  rw [State.readReg_setFlags, State.readReg_writeReg_same]
  exact ⟨fun _ hi => getLsbD_shrResult_of_lt _ _ hi, getLsbD_shrResult_seven _ _, rfl, shrFlags_n _ _ _, isZero_iff _, rfl,
    keepsAllButRegAndFlags_writeReg_setFlags s _ _ _⟩

/-- Settles O36: ROL is one register write and one load of SR, both of values read before. -/
theorem rolRotatesLeft : Obligations.RolRotatesLeft := by
  intro d s
  refine ⟨isWordOf_formatB_zero 0b10101 rfl rfl, _, exec_rol s d, ?_⟩
  rw [State.readReg_setFlags, State.readReg_writeReg_same]
  exact ⟨fun _ hi => getLsbD_shlResult_succ _ _ hi, getLsbD_shlResult_zero _ _, rfl, shlFlags_n _ _, isZero_iff _, rfl,
    keepsAllButRegAndFlags_writeReg_setFlags s _ _ _⟩

end Sys2Proof.Machine

/-! PROOFS. The family 46_special.md. A word is told from the words of its row by what is left of it when its unused bits are cleared, and an undocumented
row has no unused bits: the first makes unused bits irrelevant, the second names the word when it is refused. -/

namespace Sys2Proof.Machine

/-! Words that differ in unused bits only. -/

/-- The mask `u` of the flipped bits and the mask `m` of the bits looked at have no bit in common. -/
theorem xor_and_and_of_disjoint {n : Nat} {u m : BitVec n} (h : u &&& m = 0) (w x : BitVec n) : (w ^^^ (x &&& u)) &&& m = w &&& m := by
  apply BitVec.eq_of_getLsbD_eq
  intro i _
  have hbit : (u.getLsbD i && m.getLsbD i) = false := by simpa using congrArg (BitVec.getLsbD · i) h
  simp [Bool.and_xor_distrib_right, Bool.and_assoc, hbit]

theorem unusedBits_and_mask (row : OpcodeRow) : row.unusedBits &&& row.mask = 0 := by
  rw [OpcodeRow.unusedBits, BitVec.and_assoc, BitVec.and_comm (~~~row.mask), BitVec.and_not_self]
  exact BitVec.and_zero

theorem selects_xor_unusedBits {row : OpcodeRow} {w : InstrWord} (h : row.selects w = true) (x : InstrWord) :
    row.selects (w ^^^ (x &&& row.unusedBits)) = true := by
  rw [OpcodeRow.selects_iff, xor_and_and_of_disjoint (unusedBits_and_mask row)]
  exact OpcodeRow.selects_iff.mp h

/-- The decoder answers well-formed instructions only, and those are told apart by their words. -/
theorem decode_eq_of_encode_eq {w w' : InstrWord} (h : encode (decode w) = encode (decode w')) : decode w = decode w' := by
  rw [← decode_encode (decode_wellFormed w), h, decode_encode (decode_wellFormed w')]

/-! Words without a documented meaning. -/

/-- The row of an undocumented instruction uses every bit of the word (30_encoding.md R56, R57). -/
theorem unusedBits_of_undocumented {i : Instr} (h : i.documented = false) :
    ∀ row ∈ opcodeTable, row.mnemonic = i.mnemonic → row.unusedBits = 0 := by
  cases i with
  | undocBr | undoc01001 | undoc01100 | undoc01101 | undoc01110 | undoc10000 | undoc10001 | undoc10110 | undoc11001 | undoc11100 | undoc11101
  | undoc11110 =>
    simp only [Instr.mnemonic]
    decide
  | _ => cases h

/-- An undocumented instruction carries its whole word. -/
theorem encode_decode_of_undocumented {w : InstrWord} (h : (decode w).documented = false) : encode (decode w) = w := by
  obtain ⟨row, hrow⟩ := describes_decode w
  rw [hrow.encode, unusedBits_of_undocumented h row hrow.mem hrow.mnemonic]
  exact BitVec.and_allOnes

/-- A running machine is refused on an undocumented word, with the word and the address it was fetched from (60_exceptions.md R125). -/
theorem step_undocumented {s : State} (hrun : s.status = .running) (h : (decode s.fetch).documented = false) :
    step s = .refused (.undocumented s.fetch s.pc) := by
  rw [step_running hrun, exec_undocumented _ h, encode_decode_of_undocumented h]
  exact refuseUndocumented_advance s.fetch s

/-- The codes "no documentado" of 30_encoding.md R56. -/
theorem decode_undocumented_of_op {w : InstrWord}
    (h : fieldOp w ∈ [0b01001#5, 0b01100#5, 0b01101#5, 0b01110#5, 0b10000#5, 0b10001#5, 0b10110#5, 0b11001#5, 0b11100#5, 0b11101#5, 0b11110#5]) :
    (decode w).documented = false := by
  unfold decode
  generalize fieldOp w = op at h ⊢
  fin_cases h <;> rfl

/-- The branch family with a condition 1xx (30_encoding.md R57). -/
theorem decode_undocumented_of_cc {w : InstrWord} (hop : fieldOp w = 0b00110) (hcc : (fieldCc w).getLsbD 2 = true) :
    (decode w).documented = false := by
  have hd : decode w = decodeBranch (fieldCc w) (fieldK w) := by
    unfold decode
    rw [hop]
    rfl
  rw [hd, decodeBranch_undocumented hcc]
  rfl

/-- A whole step of a STOP (46_special.md R119). -/
theorem step_stop {s t : State} (hi : decode s.fetch = .stop) (h : step s = .next t) : t = s.advance.halt := by
  obtain ⟨-, -, hexec⟩ := step_next h
  rw [hi, exec_stop] at hexec
  cases hexec
  rfl

/-! The obligations of the family. -/

/-- Settles O7: both words select the row and agree outside its unused bits, so their instructions have one canonical word. -/
theorem unusedBitsDoNotMatter : Obligations.UnusedBitsDoNotMatter := by
  intro row hrow w x hsel
  apply decode_eq_of_encode_eq
  rw [(describes_of_selects hrow hsel).encode, (describes_of_selects hrow (selects_xor_unusedBits hsel x)).encode]
  exact xor_and_and_of_disjoint (BitVec.and_not_self _) w x

/-- Settles O10: the 11 codes decode to undocumented instructions, and those are refused. -/
theorem undocumentedCodesAreRefused : Obligations.UndocumentedCodesAreRefused := by
  refine ⟨fun s hrun hop => step_undocumented hrun (decode_undocumented_of_op hop), fun x s i hi => ?_⟩
  have hd : i.documented = false := by fin_cases hi <;> rfl
  exact exec_undocumented s hd

/-- Settles O11: IR[10] is the high bit of the condition. -/
theorem undocumentedConditionsAreRefused : Obligations.UndocumentedConditionsAreRefused := by
  refine ⟨fun s hrun hop hbit => step_undocumented hrun (decode_undocumented_of_cc hop ?_), fun cc k s => exec_undocumented s rfl⟩
  simpa [fieldCc] using hbit

/-- Settles O39: STOP halts the advanced state, and a stopped machine answers a fault. -/
theorem stopIsTerminal : Obligations.StopIsTerminal := by
  refine ⟨(isWordOf_iff rfl).mpr rfl, exec_stop, fun s t _ hi h => ?_⟩
  obtain rfl := step_stop hi h
  rw [step_stopped rfl]
  exact ⟨rfl, nofun⟩

end Sys2Proof.Machine

/-! PROOFS. The family 60_exceptions.md. A step has one of three ends, told apart by the status and by whether the word fetched is documented; the
fault is the end of the stopped machine because neither end of a running one is a fault. -/

namespace Sys2Proof.Machine

variable {s : State}

/-- A running machine completes on a documented word (60_exceptions.md R124). -/
theorem step_documented (hrun : s.status = .running) (h : (decode s.fetch).documented = true) : ∃ t, step s = .next t := by
  rw [step_running hrun]
  exact exec_documented s.advance h

theorem step_running_ne_fault (hrun : s.status = .running) (r : Fault) : step s ≠ .fault r := by
  cases hd : (decode s.fetch).documented with
  | true =>
    obtain ⟨t, ht⟩ := step_documented hrun hd
    rw [ht]
    nofun
  | false =>
    rw [step_undocumented hrun hd]
    nofun

/-- The one fault of the model is that of the stopped machine (46_special.md R119, 60_exceptions.md R124). -/
theorem step_eq_fault_iff (r : Fault) : step s = .fault r ↔ s.status = .stopped := by
  cases hs : s.status with
  | running => simpa using step_running_ne_fault hs r
  | stopped =>
    cases r
    simpa using step_stopped hs

/-! The obligation of the family. -/

/-- Settles O41: the three ends of a step, one lemma each. -/
theorem runningStepCompletesOrIsUndocumented : Obligations.RunningStepCompletesOrIsUndocumented :=
  fun _ => ⟨step_documented, step_undocumented, step_eq_fault_iff⟩

end Sys2Proof.Machine

/-! PROOFS. The family 70_reset_and_hazards.md. Every printed cycle is a lemma that reads it as register transfers; a micro-sequence is the chain of its
four cycles, and behind the fetch phase it is a step. STOP alone ends a run because the frame of the status holds of every other instruction. -/

namespace Sys2Proof.Machine

/-! The frame of the status. -/

theorem Effect.status {s t : State} {i : Instr} (h : Effect s i t) (hi : i ≠ .stop) : t.status = s.status := by
  cases h with
  | stop hstop => exact absurd hstop hi
  | _ => simp

/-! The printed cycles as the register transfers the source prints beside their signals (70_reset_and_hazards.md R142, R143). -/

section Cycles

variable (u : Micro)

section Loads

variable {m : MicroInstr}

theorem Micro.result_of_ofCode {row : AluOp} (h : AluOp.ofCode (aluCode m) = some row) :
    u.result m = (row.out u.portA (u.portB m) u.arch.flags).result := by
  rw [Micro.result, alu_of_ofCode _ _ _ h, Option.bind_some]

theorem Micro.loadAc_passA (hw : asserted m .wac = true) (h : AluOp.ofCode (aluCode m) = some .passA) :
    loadWhen (asserted m .wac) (u.result m) u.ac = some u.portA := by
  rw [hw, loadWhen_true, u.result_of_ofCode h, AluOp.out]

theorem Micro.loadAc_passB (hw : asserted m .wac = true) (h : AluOp.ofCode (aluCode m) = some .passB) :
    loadWhen (asserted m .wac) (u.result m) u.ac = some (u.portB m) := by
  rw [hw, loadWhen_true, u.result_of_ofCode h, AluOp.out]

/-- The outcome of a cycle in which each of the four registers it can load has a value to load or is kept. -/
theorem Micro.cycle_of_loads {ac mar mdr pc : Byte}
    (hac : loadWhen (asserted m .wac) (u.result m) u.ac = some ac) (hmar : loadWhen (asserted m .wmar) (u.bus m) u.mar = some mar)
    (hmdr : loadWhen (asserted m .wmdr) (u.bus m) u.mdr = some mdr) (hpc : loadWhen (asserted m .wpc) (u.bus m) u.arch.pc = some pc) :
    Micro.cycle m u = some ⟨{ u.afterWmem m with pc := pc, sp := u.afterDsp m }, u.ir, mdr, mar, ac⟩ := by
  rw [Micro.cycle, hac, hmar, hmdr, hpc]
  rfl

end Loads

theorem cycle_acFromRs : Micro.cycle [.wac, .op3, .op2] u = some { u with ac := u.arch.readReg (fieldRs u.ir) } :=
  u.cycle_of_loads (u.loadAc_passB rfl rfl) rfl rfl rfl

theorem cycle_marFromAc_acFromRd :
    Micro.cycle [.wmar, .rac, .wac, .op2, .op1] u = some { u with mar := u.ac, ac := u.arch.readReg (fieldRd u.ir) } :=
  u.cycle_of_loads (u.loadAc_passA rfl rfl) rfl rfl rfl

theorem cycle_mdrFromAc : Micro.cycle [.wmdr, .rac] u = some { u with mdr := u.ac } :=
  u.cycle_of_loads rfl rfl rfl rfl

theorem cycle_cellFromMdr : Micro.cycle [.wmem] u = some { u with arch := u.arch.writeData u.mar u.mdr } :=
  u.cycle_of_loads rfl rfl rfl rfl

theorem cycle_mdrFromPc : Micro.cycle [.wmdr, .rpc] u = some { u with mdr := u.arch.pc } :=
  u.cycle_of_loads rfl rfl rfl rfl

theorem cycle_marFromSp_decSp :
    Micro.cycle [.wmar, .rsp, .dsp] u = some { u with mar := u.arch.sp, arch := { u.arch with sp := u.arch.sp - 1 } } :=
  u.cycle_of_loads rfl rfl rfl rfl

theorem cycle_acFromK_cellFromMdr :
    Micro.cycle [.inm, .op3, .op2, .wac, .wmem] u = some { u with ac := fieldK u.ir, arch := u.arch.writeData u.mar u.mdr } :=
  u.cycle_of_loads (u.loadAc_passB rfl rfl) rfl rfl rfl

theorem cycle_pcFromAc : Micro.cycle [.wpc, .rac] u = some { u with arch := u.arch.setPc u.ac } :=
  u.cycle_of_loads rfl rfl rfl rfl

/-! The two sequences as a whole, and behind the fetch phase. -/

theorem run_stSequence : Micro.run stSequence u =
    some { u with
      arch := u.arch.writeData (u.arch.readReg (fieldRs u.ir)) (u.arch.readReg (fieldRd u.ir))
      mar := u.arch.readReg (fieldRs u.ir)
      mdr := u.arch.readReg (fieldRd u.ir)
      ac := u.arch.readReg (fieldRd u.ir) } := by
  simp only [stSequence, Micro.run_cons, Micro.run_nil, Option.bind_some, cycle_acFromRs, cycle_marFromAc_acFromRd, cycle_mdrFromAc,
    cycle_cellFromMdr]

/-- The cell is written at the old sp because MAR takes sp in the cycle that decrements it. -/
theorem run_callSequence : Micro.run callSequence u =
    some { u with
      arch := (u.arch.push u.arch.pc).setPc (fieldK u.ir)
      mar := u.arch.sp
      mdr := u.arch.pc
      ac := fieldK u.ir } := by
  simp only [callSequence, Micro.run_cons, Micro.run_nil, Option.bind_some, cycle_mdrFromPc, cycle_marFromSp_decSp, cycle_acFromK_cellFromMdr,
    cycle_pcFromAc]
  rfl

variable {u}

/-- An execute phase that does to the architectural state what its instruction does is, behind the fetch phase, a step. -/
theorem step_of_fetchPhase_exec {v : Micro} {i : Instr} (hrun : u.arch.status = .running) (hi : decode u.arch.fetch = i)
    (h : exec i u.fetchPhase.arch = .next v.arch) : step u.arch = .next v.arch := by
  rw [step_running hrun, hi]
  exact h

end Cycles

/-! The obligations of the family. -/

/-- Settles O40: STOP halts, and every other instruction keeps the status a step needs in order to start. -/
theorem onlyStopStops : Obligations.OnlyStopStops := by
  intro s t h
  constructor
  · intro hstopped
    by_contra hi
    obtain ⟨hrunning, -, -⟩ := step_next h
    have hkept : t.status = s.status := (step_effect h).status hi
    cases hstopped.symm.trans (hkept.trans hrunning)
  · intro hi
    rw [step_stop hi h, State.halt_status]

/-- Settles O52: reset leaves pc 0, so the word fetched is the one at program address 0. -/
theorem resetStartsAtZero : Obligations.ResetStartsAtZero :=
  fun _ => ⟨rfl, rfl, step_running rfl⟩

/-- Settles O54: the base register of the word is its field IR[2:0], the stored register IR[10:8]. -/
theorem stSequenceRefinesSt : Obligations.StSequenceRefinesSt := by
  intro u b r hi
  obtain ⟨rfl, rfl⟩ := fields_of_decode_st hi
  exact ⟨rfl, _, run_stSequence u, exec_st u.arch _ _, rfl, rfl, rfl, rfl⟩

/-- Settles O55: the target of the word is its field IR[7:0]. -/
theorem callSequenceRefinesCall : Obligations.CallSequenceRefinesCall := by
  intro u k hi
  obtain rfl := field_of_decode_call hi
  exact ⟨rfl, _, run_callSequence u, exec_call u.arch _, rfl, rfl, rfl, rfl⟩

/-- Settles O56: the fetch phase puts the word and the incremented pc where the execute phase of either instruction starts. -/
theorem microCyclesRefineTheStep : Obligations.MicroCyclesRefineTheStep := by
  intro u hrun
  constructor
  · intro b r hi
    obtain ⟨-, v, hv, hexec, -⟩ := stSequenceRefinesSt u.fetchPhase b r hi
    exact ⟨v, hv, step_of_fetchPhase_exec hrun hi hexec⟩
  · intro k hi
    obtain ⟨-, v, hv, hexec, -⟩ := callSequenceRefinesCall u.fetchPhase k hi
    exact ⟨v, hv, step_of_fetchPhase_exec hrun hi hexec⟩

end Sys2Proof.Machine
